-- ==== Sys2Proof/Word.lean ====
section
/-! DEFINITION. The widths of the block's values (spec/00_scope.md R7, R8). -/

namespace Sys2Proof

/-- One lane: a byte of data or one character code (R8 `LANE_W`, R16). -/
abbrev Byte := BitVec 8

/-- One base32 group, the value of one character (R7, R18). -/
abbrev Group := BitVec 5

/-- An offset in the 128-byte register window (R8 `ADDR_W`, R50). -/
abbrev Offset := BitVec 7

/-- The timestamp input (R8 `TS_W`), read as two's complement. -/
abbrev Word64 := BitVec 64

/-- The integer input and the word output (R8 `INT_W`), unsigned. -/
abbrev Word128 := BitVec 128

end Sys2Proof
end

