-- ==== Sys2Proof/Syntax.lean ====
section
/-! DEFINITION. The commands of the block: one constructor per row of spec/opcode_table.json
(spec/30_encoding.md R71).  No command has a field (R70); its operands are the registers R72 names.
-/

namespace Sys2Proof

/-- The eleven commands of R71, in the table's order. -/
inductive Instr where
  /-- `ENC_TS` (R102) -/
  | encTs
  /-- `ENC_RAND` (R103) -/
  | encRand
  /-- `ENC` (R104) -/
  | enc
  /-- `DEC_TS` (R125) -/
  | decTs
  /-- `DEC_RAND` (R126) -/
  | decRand
  /-- `DEC` (R127) -/
  | dec
  /-- `TS_PACK` (R160) -/
  | tsPack
  /-- `TS_UNPACK` (R161) -/
  | tsUnpack
  /-- `INT_TO_BYTES` (R162) -/
  | intToBytes
  /-- `BYTES_TO_INT` (R163) -/
  | bytesToInt
  /-- `CMP` (R164) -/
  | cmp
deriving DecidableEq, Repr

end Sys2Proof
end

