-- ==== Sys2Proof/Machine/HostSyntax.lean ====
section
/-! DEFINITION. The host's side of the block as data: the actions the outside world can take on it
and the statements of a host program (spec/30_encoding.md R76 to R78; spec/20_memory.md R54;
spec/70_reset_and_hazards.md R250). -/

namespace Sys2Proof.Machine

/-- A host variable: `name`, or element `index` of the array `name` (R78 writes `name[i]`). -/
structure HostVar where
  name  : String
  index : Nat
deriving DecidableEq, Repr

/-- One action of the outside world on the block.  The first four are the basic statements of R76;
`wide` is an access of any width but 8 bits (R54), `assertReset` the reset input (R250). -/
inductive HostAction where
  /-- `WRB off, v`: `HostWrite(off, v)` -/
  | wrb (off : Offset) (v : Byte)
  /-- `RDB off -> x`: `x <- HostRead(off)` -/
  | rdb (off : Offset) (x : HostVar)
  /-- `START`: `HostWrite(0x02, 0x01)` -/
  | start
  /-- `WAIT`: read `STATUS` until its bit 1 is 0 -/
  | wait
  /-- an access of `bits` bits at `off` -/
  | wide (off : Offset) (bits : Nat)
  /-- the reset input is asserted -/
  | assertReset
deriving DecidableEq, Repr

/-- A statement of a host program: a basic action, a command (R77) or an operand pseudo-instruction
(R78). -/
inductive HostStmt where
  | basic (a : HostAction)
  /-- a mnemonic of R71 alone on a line -/
  | command (i : Instr)
  /-- `LDIN "s"` -/
  | ldinString (s : List Char)
  /-- `LDIN x0 x1 …` -/
  | ldinBytes (xs : List Byte)
  /-- `LDLEN n` -/
  | ldlen (n : Byte)
  /-- `LDID x0 … x15` -/
  | ldid (xs : List Byte)
  /-- `LDTS v` -/
  | ldts (v : Int)
  /-- `LDINT v` -/
  | ldint (v : Nat)
  /-- `RDOUT n -> name` -/
  | rdout (n : Nat) (name : String)
  /-- `RDWORD -> name` -/
  | rdword (name : String)
deriving DecidableEq, Repr

end Sys2Proof.Machine
end

