-- ==== Sys2Proof/WellFormed.lean ====
section
/-! DEFINITION. Which commands, host actions and host statements are well formed.
A command has no operand field (spec/30_encoding.md R70, R73), so every term of `Instr` is well
formed; the checks that can fail are those R54 and R78 put on the host's statements. -/

namespace Sys2Proof

/-- R70: the format `CMD8` has no field beside the opcode, so there is nothing to check. -/
def Instr.wf : Instr → Bool
  | _ => true

namespace Machine

/-- R54: an access of 8 bits is `wrb` or `rdb`; `wide` names every other width. -/
def HostAction.wf : HostAction → Bool
  | .wide _ bits => bits != 8
  | _ => true

/-- The bounds R78 puts on each operand pseudo-instruction. -/
def HostStmt.wf : HostStmt → Bool
  | .basic a => a.wf
  | .command i => i.wf
  | .ldinString s => decide (s.length ≤ 26) && s.all fun c => decide (c.toNat < 128)
  | .ldinBytes xs => decide (xs.length ≤ 26)
  | .ldlen _ => true
  | .ldid xs => decide (xs.length = 16)
  | .ldts v => decide (-2 ^ 63 ≤ v ∧ v < 2 ^ 63)
  | .ldint v => decide (v < 2 ^ 128)
  | .rdout n _ => decide (n ≤ 26)
  | .rdword _ => true

end Machine

end Sys2Proof
end

