-- ==== Sys2Proof/Decode.lean ====
section
/-! DEFINITION. The command decoder and, after it, the encoder (spec/30_encoding.md R70, R71, R74).
A command is the 8-bit value of `CMD`; all eight bits are decoded. -/

namespace Sys2Proof

/-- Why a value of `CMD` is no command. -/
inductive DecodeReject where
  /-- one of the 245 reserved values 0x00 and 0x0C to 0xFF (R74) -/
  | reservedOpcode (c : Byte)
deriving DecidableEq, Repr

/-- One row of the opcode map: `c` is this command when `c &&& mask = pattern`. -/
structure OpcodeRow where
  mask    : Byte
  pattern : Byte
  instr   : Instr
deriving DecidableEq, Repr

/-- The opcode map of R71; every row's mask is 0xFF. -/
def opcodeMap : List OpcodeRow :=
  [ ⟨0xFF, 0x01, .encTs⟩,
    ⟨0xFF, 0x02, .encRand⟩,
    ⟨0xFF, 0x03, .enc⟩,
    ⟨0xFF, 0x04, .decTs⟩,
    ⟨0xFF, 0x05, .decRand⟩,
    ⟨0xFF, 0x06, .dec⟩,
    ⟨0xFF, 0x07, .tsPack⟩,
    ⟨0xFF, 0x08, .tsUnpack⟩,
    ⟨0xFF, 0x09, .intToBytes⟩,
    ⟨0xFF, 0x0A, .bytesToInt⟩,
    ⟨0xFF, 0x0B, .cmp⟩ ]

/-- Does a row select this value of `CMD`? -/
def OpcodeRow.selects (r : OpcodeRow) (c : Byte) : Bool := c &&& r.mask == r.pattern

/-- Decode one value of `CMD` (R70, R71); a reserved value is rejected by name (R74). -/
def decode (c : Byte) : Except DecodeReject Instr :=
  match opcodeMap.find? (·.selects c) with
  | some r => .ok r.instr
  | none => .error (.reservedOpcode c)

/-- The value of `CMD` that selects a command, written from R71. -/
def encode : Instr → Byte
  | .encTs => 0x01
  | .encRand => 0x02
  | .enc => 0x03
  | .decTs => 0x04
  | .decRand => 0x05
  | .dec => 0x06
  | .tsPack => 0x07
  | .tsUnpack => 0x08
  | .intToBytes => 0x09
  | .bytesToInt => 0x0A
  | .cmp => 0x0B

/-- What the decoder reads from a word numbered as spec/opcode_table.json numbers it: one byte, so
a word of another length is no command. -/
def decodeTableWord (nbits w : Nat) : Option Instr :=
  if nbits = 8 ∧ w < 256 then
    match decode (BitVec.ofNat 8 w) with
    | .ok i => some i
    | .error _ => none
  else none

end Sys2Proof
end

