-- ==== Sys2Proof/Config.lean ====
section
/-! DEFINITION. What the spec leaves open, as constants without a body: nothing in Lean can evaluate
one, so a statement holds whatever they are.  Each is applied to the counter `State.draws`, which
moves on with every draw. -/

namespace Sys2Proof.Config

/-- `LATENCY` (spec/00_scope.md R9, spec/70_reset_and_hazards.md R262): how many host steps may
come between a `START` and the completion of its command.  Finite, unbounded, drawn anew at each
`START`.  DESIGN CHOICE (notes/assumptions/2.md). -/
opaque latency : Nat → Nat

/-- `draw()` (spec/20_memory.md R52, spec/70_reset_and_hazards.md R265): what a read of an output
register returns while `BUSY = 1`.  Any byte.  DESIGN CHOICE (notes/assumptions/3.md). -/
opaque busyRead : Nat → Byte

end Sys2Proof.Config
end

