-- ==== Sys2Proof/Machine/State.lean ====
section
/-! DEFINITION. The state of the block (spec/10_state.md R21, R38), the ways a run can stop
(spec/60_exceptions.md R216), the error kinds (R200) and the places of the register window
(spec/20_memory.md R50). -/

namespace Sys2Proof.Machine

/-- Why a step stops with a fault. -/
inductive Fault where
  /-- Raised by a host write that is neither to a reserved offset nor to a read-only register while
  `STATUS.BUSY = 1` (R53, R264, R216).  SAFE: the machine stops where the spec defines nothing. -/
  | hostWriteWhileBusy (off : Offset)
deriving DecidableEq, Repr

/-- Why a step has no meaning. -/
inductive Refusal where
  /-- Raised by an arm of `exec` whose command has no meaning yet; no arm does.  SAFE. -/
  | notModelled (mnemonic : String)
  /-- Raised by a host access of a width other than 8 bits (R54, R216).  SAFE. -/
  | wideAccess (off : Offset) (bits : Nat)
deriving DecidableEq, Repr

/-- The outcomes of one step of this machine. -/
abbrev Result (σ : Type) := Host.Outcome σ Fault Refusal

/-- The error kinds a command can complete with (R200). -/
inductive ErrKind where
  /-- R202 -/
  | illegalCommand
  /-- R201 -/
  | length
  /-- R204: the lane, and whether the character overflows the timestamp -/
  | alphabet (pos : Nat) (ovf : Bool)
  /-- R206 -/
  | range
deriving DecidableEq, Repr

/-- A place of the register window (R50).  A multi-byte register has one place per byte, byte 0 at
its lowest offset. -/
inductive Loc where
  | cmd
  | inLen
  | ctrl
  | status
  | errInfo
  | outLen
  | cmpOut
  | tsIn (k : Fin 8)
  | intIn (k : Fin 16)
  | inp (i : Fin 26)
  | ident (i : Fin 16)
  | wordOut (k : Fin 16)
  | out (i : Fin 26)
  | reserved
deriving DecidableEq, Repr

/-- How the host may use a place of the window (R21, R50). -/
inductive Access where
  /-- host read and write -/
  | rw
  /-- host read only: writes are ignored -/
  | ro
  /-- host write only: reads return 0x00 -/
  | wo
  /-- reads 0x00, writes ignored -/
  | reserved
deriving DecidableEq, Repr

/-- The state: first the registers of R21, then the model's own fields for the other agent of R20
(the host) and for the open points of the spec.  `CTRL` holds no state (R24); the ROMs are
constants (R41).  There is no memory (spec/20_memory.md), no program counter and no mode (R20,
R220). -/
structure State where
  /-- `CMD` (R22) -/
  cmd     : Byte
  /-- `IN_LEN` (R23) -/
  inLen   : Byte
  /-- `STATUS` (R25); its fields are read by the accessors of Machine/Flags.lean -/
  status  : Byte
  /-- `ERR_INFO` (R26) -/
  errInfo : Byte
  /-- `OUT_LEN` (R27) -/
  outLen  : Byte
  /-- `CMP_OUT` (R28) -/
  cmpOut  : Byte
  /-- `TS_IN` (R29) -/
  tsIn    : Word64
  /-- `INT_IN` (R30) -/
  intIn   : Word128
  /-- `IN[0..25]` (R34) -/
  inp     : Vector Byte 26
  /-- `ID[0..15]` (R35) -/
  ident   : Vector Byte 16
  /-- `WORD_OUT` (R36) -/
  wordOut : Word128
  /-- `OUT[0..25]` (R37) -/
  out     : Vector Byte 26
  /-- The model's own: what the outside world will still do, first action first
  (DESIGN CHOICE, notes/assumptions/1.md). -/
  host    : List HostAction
  /-- The model's own: the host variables that reads have set, the latest first
  (DESIGN CHOICE, notes/assumptions/6.md). -/
  vars    : List (HostVar × Byte)
  /-- The model's own: how many more host steps come before the unit's
  (DESIGN CHOICE, notes/assumptions/2.md). -/
  wait    : Nat
  /-- The model's own: how many free values have been drawn (DESIGN CHOICE,
  notes/assumptions/16.md). -/
  draws   : Nat
deriving DecidableEq, Repr

/-- The state right after reset: every register is 0 (R41, R250).  The last four fields are the
model's own; their values here are a DESIGN CHOICE (notes/assumptions/8.md). -/
def State.reset : State where
  cmd     := 0x00
  inLen   := 0x00
  status  := 0x00
  errInfo := 0x00
  outLen  := 0x00
  cmpOut  := 0x00
  tsIn    := 0
  intIn   := 0
  inp     := Vector.replicate 26 0x00
  ident   := Vector.replicate 16 0x00
  wordOut := 0
  out     := Vector.replicate 26 0x00
  host    := []
  vars    := []
  wait    := 0
  draws   := 0

end Sys2Proof.Machine
end

