-- ==== Sys2Proof/Machine/Flags.lean ====
section
/-! DEFINITION. The status bits and the error report (spec/10_state.md R25, R26, R40;
spec/60_exceptions.md R200, R205, R210).  The block has no condition codes (R40). -/

namespace Sys2Proof.Machine

/-- `STATUS.DONE`, bit 0 (R25). -/
def State.done (s : State) : Bool := s.status.getLsbD 0

/-- `STATUS.BUSY`, bit 1 (R25). -/
def State.busy (s : State) : Bool := s.status.getLsbD 1

/-- `STATUS.ERR`, bits 4:2 (R25). -/
def State.err (s : State) : BitVec 3 := s.status.extractLsb' 2 3

/-- `ERR_INFO.POS`, bits 4:0 (R26). -/
def State.errPos (s : State) : BitVec 5 := s.errInfo.extractLsb' 0 5

/-- `ERR_INFO.OVF`, bit 7 (R26). -/
def State.errOvf (s : State) : Bool := s.errInfo.getLsbD 7

/-- The `STATUS.ERR` code of an error kind (R200). -/
def ErrKind.code : ErrKind → BitVec 3
  | .illegalCommand => 1
  | .length => 2
  | .alphabet _ _ => 3
  | .range => 4

/-- `STATUS` after an error completion: `0x01 | (e << 2)` (R205). -/
def ErrKind.statusByte (e : ErrKind) : Byte := 0x01 ||| (e.code.setWidth 8 <<< 2)

/-- `ERR_INFO` after an error completion: `(ovf << 7) | pos` for an alphabet error, 0x00 for every
other (R205). -/
def ErrKind.infoByte : ErrKind → Byte
  | .alphabet pos ovf => (BitVec.ofBool ovf).setWidth 8 <<< 7 ||| BitVec.ofNat 8 pos
  | .illegalCommand => 0x00
  | .length => 0x00
  | .range => 0x00

/-- `STATUS` after a completion without error (R210). -/
def statusDone : Byte := 0x01

/-- `STATUS` from `Start()` to the completion (R259). -/
def statusBusy : Byte := 0x02

end Sys2Proof.Machine
end

