-- ==== Sys2Proof/Machine/Rom.lean ====
section
/-! DEFINITION. The two read-only tables (spec/10_state.md R31 to R33) and the character lookup
(spec/41_decode.md R120). -/

namespace Sys2Proof.Machine

/-- The `ENCODE` ROM of R31: the codes of `0123456789ABCDEFGHJKMNPQRSTVWXYZ`. -/
def encodeRom : Vector Byte 32 :=
  #v[0x30, 0x31, 0x32, 0x33, 0x34, 0x35, 0x36, 0x37,
     0x38, 0x39, 0x41, 0x42, 0x43, 0x44, 0x45, 0x46,
     0x47, 0x48, 0x4A, 0x4B, 0x4D, 0x4E, 0x50, 0x51,
     0x52, 0x53, 0x54, 0x56, 0x57, 0x58, 0x59, 0x5A]

/-- `ENCODE[g]`. -/
def encodeChar (g : Group) : Byte := encodeRom[g.toNat]'(g.isLt)

/-- The stored marker `INVALID` of the `DECODE` ROM (R32); no rule reads its value. -/
def invalidMark : Byte := 0xFF

/-- A row of sixteen `INVALID` entries. -/
def invalidRow : Vector Byte 16 := Vector.replicate 16 invalidMark

/-- The `DECODE` ROM of R32 as stored: eight rows of sixteen codes, row `r` for the codes `16r` to
`16r + 15`. -/
def decodeRom : Vector (Vector Byte 16) 8 :=
  #v[invalidRow,
     invalidRow,
     invalidRow,
     #v[0x00, 0x01, 0x02, 0x03, 0x04, 0x05, 0x06, 0x07, 0x08, 0x09, invalidMark, invalidMark,
        invalidMark, invalidMark, invalidMark, invalidMark],
     #v[invalidMark, 0x0A, 0x0B, 0x0C, 0x0D, 0x0E, 0x0F, 0x10, 0x11, invalidMark, 0x12, 0x13,
        invalidMark, 0x14, 0x15, invalidMark],
     #v[0x16, 0x17, 0x18, 0x19, 0x1A, invalidMark, 0x1B, 0x1C, 0x1D, 0x1E, 0x1F, invalidMark,
        invalidMark, invalidMark, invalidMark, invalidMark],
     invalidRow,
     invalidRow]

/-- `DECODE[n]` as stored, for a code below 128. -/
def decodeEntry (n : Nat) (h : n < 128) : Byte :=
  (decodeRom[n / 16]'(by omega))[n % 16]'(by omega)

/-- `lookup(c)` of R120: `none` is `INVALID`.  A code at or above 0x80 is outside the table and
never wraps into it. -/
def lookup (c : Byte) : Option Group :=
  if h : c.toNat < 128 then
    if decodeEntry c.toNat h = invalidMark then none else some ((decodeEntry c.toNat h).setWidth 5)
  else none

end Sys2Proof.Machine
end

