-- ==== Sys2Proof/Machine/Operands.lean ====
section
/-! DEFINITION. The operand forms (spec/30_encoding.md R73): lane slices, big-endian values
(spec/00_scope.md R13), unsigned lexicographic order (R14), and the character scan of the decode
commands (spec/41_decode.md R121, R122). -/

namespace Sys2Proof.Machine

/-- The elements `start` to `start + n - 1` of a lane array (R10 `A[i..j]`). -/
def lanes {α : Type} {m : Nat} (v : Vector α m) (start n : Nat)
    (h : start + n ≤ m := by decide) : Vector α n :=
  Vector.ofFn fun i => v[start + i.val]

/-- A function applied to every lane. -/
def mapLanes {α β : Type} {n : Nat} (f : α → β) (v : Vector α n) : Vector β n :=
  Vector.ofFn fun i => f v[i]

/-- `BE(B)` of R13: byte 0 is the most significant. -/
def bigEndian : List Byte → Nat
  | [] => 0
  | b :: bs => b.toNat * 256 ^ bs.length + bigEndian bs

/-- `BE_n(v)` of R13: `B[i] = v[8(n-1-i)+7 : 8(n-1-i)]`. -/
def bigEndianBytes (n v : Nat) : Vector Byte n :=
  Vector.ofFn fun i => BitVec.ofNat 8 (v >>> (8 * (n - 1 - i.val)))

/-- The 8 bits of a word from bit `sh` up: one byte of its window image (R57). -/
def getByte {n : Nat} (w : BitVec n) (sh : Nat) : Byte := w.extractLsb' sh 8

/-- A word with the 8 bits from bit `sh` up replaced. -/
def putByte {n : Nat} (w : BitVec n) (sh : Nat) (v : Byte) : BitVec n :=
  (w &&& ~~~((0xFF : BitVec n) <<< sh)) ||| (v.setWidth n <<< sh)

/-- The order of two byte arrays by R14: the first unequal byte decides, bytes compared unsigned,
and a proper initial part is less. -/
def lexCompare : List Byte → List Byte → Ordering
  | [], [] => .eq
  | [], _ :: _ => .lt
  | _ :: _, [] => .gt
  | a :: as, b :: bs =>
    if a.toNat < b.toNat then .lt
    else if b.toNat < a.toNat then .gt
    else lexCompare as bs

/-- The byte operand `IN[0..IN_LEN-1]` of `CMP` (R73, R164). -/
def State.inOperand (s : State) : List Byte := s.inp.toList.take s.inLen.toNat

/-- `overflow(v0)` of R121. -/
def overflows (v0 : Group) : Bool := decide (7 < v0.toNat)

/-- The scan of R122 from lane `i` on: the first failing lane's error, outside the alphabet before
overflow.  `ts` says that lane 0 starts a timestamp. -/
def scanError (ts : Bool) : Nat → List Byte → Option ErrKind
  | _, [] => none
  | i, c :: cs =>
    match lookup c with
    | none => some (.alphabet i false)
    | some v =>
      if ts && i == 0 && overflows v then some (.alphabet 0 true)
      else scanError ts (i + 1) cs

/-- The values of codes that the scan has accepted; where it has not, no rule reads them. -/
def groupsOf {n : Nat} (codes : Vector Byte n) : Vector Group n :=
  mapLanes (fun c => (lookup c).getD 0) codes

/-- `validate(n, ts)` of R122: the values of all the characters, or the first failure. -/
def validate {n : Nat} (ts : Bool) (codes : Vector Byte n) : Except ErrKind (Vector Group n) :=
  match scanError ts 0 codes.toList with
  | some e => .error e
  | none => .ok (groupsOf codes)

end Sys2Proof.Machine
end

