-- ==== Sys2Proof/Machine/Ops.lean ====
section
/-! DEFINITION. The named operations on the registers: completing a command with or without an
error (spec/60_exceptions.md R205, R210), starting one (spec/70_reset_and_hazards.md R259), reset
(R250), and the host's reads and writes of the window (spec/20_memory.md R50 to R53). -/

namespace Sys2Proof.Machine

/-- The one completion step: every output register and `STATUS` are written, nothing else is
(R205, R210, R260).  Lanes beyond the ones named are cleared. -/
def State.complete (s : State) (status errInfo : Byte) (lns : List Byte) (word : Word128)
    (rel : Byte) : State :=
  { s with
    status  := status
    errInfo := errInfo
    outLen  := BitVec.ofNat 8 lns.length
    out     := Vector.ofFn fun i => lns.getD i.val 0x00
    wordOut := word
    cmpOut  := rel }

/-- `finish(...)` of R210: completion without error; an output not named is 0. -/
def finish (s : State) (lns : List Byte) (word : Word128) (rel : Byte) : Result State :=
  .next (s.complete statusDone 0x00 lns word rel)

/-- `raise E(...)` of R203 and R205, the one way an error is taken: the command completes at once,
the report is written, and every output is cleared.  There is no trap (R213): no program counter
or mode is saved, nothing is returned from. -/
def raise (s : State) (e : ErrKind) : Result State :=
  .next (s.complete e.statusByte e.infoByte [] 0 0x00)

/-- `Start()` of R259; the latency of the command is drawn (DESIGN CHOICE,
notes/assumptions/2.md). -/
def State.start (s : State) : State :=
  { s with status := statusBusy, wait := Config.latency s.draws, draws := s.draws + 1 }

/-- The reset input (R250, R251): every register takes its reset value, a command in flight is
abandoned.  What the host will still do and what it has read are not the block's
(DESIGN CHOICE, notes/assumptions/4.md). -/
def State.assertReset (s : State) : State :=
  { State.reset with host := s.host, vars := s.vars, draws := s.draws }

/-- The map of the window (R50). -/
def locate (off : Offset) : Loc :=
  let n := off.toNat
  if n = 0x00 then .cmd
  else if n = 0x01 then .inLen
  else if n = 0x02 then .ctrl
  else if n = 0x03 then .status
  else if n = 0x04 then .errInfo
  else if n = 0x05 then .outLen
  else if n = 0x06 then .cmpOut
  else if n = 0x07 then .reserved
  else if h : n - 0x08 < 8 then .tsIn ⟨n - 0x08, h⟩
  else if h : n - 0x10 < 16 then .intIn ⟨n - 0x10, h⟩
  else if h : n - 0x20 < 26 then .inp ⟨n - 0x20, h⟩
  else if n < 0x40 then .reserved
  else if h : n - 0x40 < 16 then .ident ⟨n - 0x40, h⟩
  else if h : n - 0x50 < 16 then .wordOut ⟨n - 0x50, h⟩
  else if h : n - 0x60 < 26 then .out ⟨n - 0x60, h⟩
  else .reserved

/-- The access column of R50. -/
def Loc.access : Loc → Access
  | .cmd => .rw
  | .inLen => .rw
  | .ctrl => .wo
  | .status => .ro
  | .errInfo => .ro
  | .outLen => .ro
  | .cmpOut => .ro
  | .tsIn _ => .rw
  | .intIn _ => .rw
  | .inp _ => .rw
  | .ident _ => .rw
  | .wordOut _ => .ro
  | .out _ => .ro
  | .reserved => .reserved

/-- The output places, whose reads while `BUSY = 1` return any byte (R52, R265). -/
def Loc.isOutput : Loc → Bool
  | .errInfo => true
  | .outLen => true
  | .cmpOut => true
  | .wordOut _ => true
  | .out _ => true
  | .cmd => false
  | .inLen => false
  | .ctrl => false
  | .status => false
  | .tsIn _ => false
  | .intIn _ => false
  | .inp _ => false
  | .ident _ => false
  | .reserved => false

/-- The byte a place holds (R50, R57); `CTRL` and reserved places read 0x00 (R24, R51). -/
def State.readLoc (s : State) : Loc → Byte
  | .cmd => s.cmd
  | .inLen => s.inLen
  | .ctrl => 0x00
  | .status => s.status
  | .errInfo => s.errInfo
  | .outLen => s.outLen
  | .cmpOut => s.cmpOut
  | .tsIn k => getByte s.tsIn (56 - 8 * k.val)
  | .intIn k => getByte s.intIn (120 - 8 * k.val)
  | .inp i => s.inp[i]
  | .ident i => s.ident[i]
  | .wordOut k => getByte s.wordOut (120 - 8 * k.val)
  | .out i => s.out[i]
  | .reserved => 0x00

/-- Store a byte at an RW place, exactly as written (R53); a place that is not RW keeps its
value. -/
def State.writeLoc (s : State) (l : Loc) (v : Byte) : State :=
  match l with
  | .cmd => { s with cmd := v }
  | .inLen => { s with inLen := v }
  | .tsIn k => { s with tsIn := putByte s.tsIn (56 - 8 * k.val) v }
  | .intIn k => { s with intIn := putByte s.intIn (120 - 8 * k.val) v }
  | .inp i => { s with inp := s.inp.set i v }
  | .ident i => { s with ident := s.ident.set i v }
  | .ctrl => s
  | .status => s
  | .errInfo => s
  | .outLen => s
  | .cmpOut => s
  | .wordOut _ => s
  | .out _ => s
  | .reserved => s

/-- `HostRead(off)` of R52: the byte, and the state, of which a read changes at most the model's
counter of draws. -/
def hostRead (s : State) (off : Offset) : Byte × State :=
  if (locate off).isOutput && s.busy then
    (Config.busyRead s.draws, { s with draws := s.draws + 1 })
  else (s.readLoc (locate off), s)

/-- `HostWrite(off, v)` of R53, with the fault of R264. -/
def hostWrite (s : State) (off : Offset) (v : Byte) : Result State :=
  match (locate off).access with
  | .reserved => .next s
  | .ro => .next s
  | .wo =>
    if s.busy then .fault (.hostWriteWhileBusy off)
    else if v.getLsbD 0 then .next s.start else .next s
  | .rw =>
    if s.busy then .fault (.hostWriteWhileBusy off)
    else .next (s.writeLoc (locate off) v)

/-- The host assigns a byte to one of its variables (R76); the latest value stands. -/
def State.assign (s : State) (x : HostVar) (v : Byte) : State :=
  { s with vars := (x, v) :: s.vars.filter fun p => p.1 ≠ x }

end Sys2Proof.Machine
end

