-- ==== Sys2Proof/Machine/Packing.lean ====
section
/-! DEFINITION. The fixed 5-bit packing (spec/40_encode.md R100, R101) and its inverse
(spec/41_decode.md R123, R124), written from the tables of those rules. -/

namespace Sys2Proof.Machine

/-- `b[hi:lo]` of R10, `n` bits from bit `lo` up. -/
abbrev bits (b : Byte) (lo n : Nat) : BitVec n := b.extractLsb' lo n

/-- The 5-bit concatenation `hi ‖ lo` of R11. -/
def join {m n : Nat} (hi : BitVec m) (lo : BitVec n) (h : m + n = 5 := by rfl) : Group :=
  (hi ++ lo).cast h

/-- Timestamp packing, 6 bytes to 10 groups: the "bits" column of R100. -/
def packTimestamp (b : Vector Byte 6) : Vector Group 10 :=
  #v[(bits b[0] 5 3).setWidth 5,
     bits b[0] 0 5,
     bits b[1] 3 5,
     join (bits b[1] 0 3) (bits b[2] 6 2),
     bits b[2] 1 5,
     join (bits b[2] 0 1) (bits b[3] 4 4),
     join (bits b[3] 0 4) (bits b[4] 7 1),
     bits b[4] 2 5,
     join (bits b[4] 0 2) (bits b[5] 5 3),
     bits b[5] 0 5]

/-- Half of the randomness packing, 5 bytes to 8 groups: the "bits" column of R101. -/
def packHalf (b : Vector Byte 5) : Vector Group 8 :=
  #v[bits b[0] 3 5,
     join (bits b[0] 0 3) (bits b[1] 6 2),
     bits b[1] 1 5,
     join (bits b[1] 0 1) (bits b[2] 4 4),
     join (bits b[2] 0 4) (bits b[3] 7 1),
     bits b[3] 2 5,
     join (bits b[3] 0 2) (bits b[4] 5 3),
     bits b[4] 0 5]

/-- Randomness packing, 10 bytes to 16 groups: the halves `h = 0, 1` of R101. -/
def packRandomness (b : Vector Byte 10) : Vector Group 16 :=
  packHalf (lanes b 0 5) ++ packHalf (lanes b 5 5)

/-- A group as a byte, for the 8-bit shifts of R123 and R124 (`& 0xFF` is the width). -/
abbrev wide (g : Group) : Byte := g.setWidth 8

/-- Timestamp unpacking, 10 values to 6 bytes (R123). -/
def unpackTimestamp (v : Vector Group 10) : Vector Byte 6 :=
  #v[(wide v[0] <<< 5) ||| wide v[1],
     (wide v[2] <<< 3) ||| (wide v[3] >>> 2),
     ((wide v[3] &&& 0x03) <<< 6) ||| (wide v[4] <<< 1) ||| (wide v[5] >>> 4),
     ((wide v[5] &&& 0x0F) <<< 4) ||| (wide v[6] >>> 1),
     ((wide v[6] &&& 0x01) <<< 7) ||| (wide v[7] <<< 2) ||| (wide v[8] >>> 3),
     ((wide v[8] &&& 0x07) <<< 5) ||| wide v[9]]

/-- Half of the randomness unpacking, 8 values to 5 bytes (R124). -/
def unpackHalf (w : Vector Group 8) : Vector Byte 5 :=
  #v[(wide w[0] <<< 3) ||| (wide w[1] >>> 2),
     ((wide w[1] &&& 0x03) <<< 6) ||| (wide w[2] <<< 1) ||| (wide w[3] >>> 4),
     ((wide w[3] &&& 0x0F) <<< 4) ||| (wide w[4] >>> 1),
     ((wide w[4] &&& 0x01) <<< 7) ||| (wide w[5] <<< 2) ||| (wide w[6] >>> 3),
     ((wide w[6] &&& 0x07) <<< 5) ||| wide w[7]]

/-- Randomness unpacking, 16 values to 10 bytes: the halves `h = 0, 1` of R124. -/
def unpackRandomness (v : Vector Group 16) : Vector Byte 10 :=
  unpackHalf (lanes v 0 8) ++ unpackHalf (lanes v 8 8)

/-- The characters of a timestamp (R102). -/
def encodeTimestamp (b : Vector Byte 6) : Vector Byte 10 := mapLanes encodeChar (packTimestamp b)

/-- The characters of a randomness (R103). -/
def encodeRandomness (b : Vector Byte 10) : Vector Byte 16 := mapLanes encodeChar (packRandomness b)

/-- The characters of an identifier: the two above, one after the other (R104). -/
def encodeIdentifier (b : Vector Byte 16) : Vector Byte 26 :=
  encodeTimestamp (lanes b 0 6) ++ encodeRandomness (lanes b 6 10)

/-- The bytes of 26 values, split at value 10 (R127). -/
def unpackIdentifier (v : Vector Group 26) : Vector Byte 16 :=
  unpackTimestamp (lanes v 0 10) ++ unpackRandomness (lanes v 10 16)

end Sys2Proof.Machine
end

