-- ==== Sys2Proof/Machine/DecodeFamily.lean ====
section
/-! DEFINITION. The decode commands (spec/41_decode.md R125 to R127). -/

namespace Sys2Proof.Machine

/-- What the decode commands share after their length check: validate the codes, raise the first
failure (R122, R203), otherwise unpack the values and finish. -/
def decodeLanes {n m : Nat} (s : State) (ts : Bool) (codes : Vector Byte n)
    (unpack : Vector Group n → Vector Byte m) : Result State :=
  match validate ts codes with
  | .error e => raise s e
  | .ok v => finish s (unpack v).toList 0 0x00

/-- `DEC_TS` (R125). -/
def execDecTs (s : State) : Result State :=
  if s.inLen ≠ 10 then raise s .length
  else decodeLanes s true (lanes s.inp 0 10) unpackTimestamp

/-- `DEC_RAND` (R126). -/
def execDecRand (s : State) : Result State :=
  if s.inLen ≠ 16 then raise s .length
  else decodeLanes s false (lanes s.inp 0 16) unpackRandomness

/-- `DEC` (R127): all 26 lanes are validated before any byte is produced. -/
def execDec (s : State) : Result State :=
  if s.inLen ≠ 26 then raise s .length
  else decodeLanes s true s.inp unpackIdentifier

end Sys2Proof.Machine
end

