-- ==== Sys2Proof/Machine/EncodeFamily.lean ====
section
/-! DEFINITION. The encode commands (spec/40_encode.md R102 to R104). -/

namespace Sys2Proof.Machine

/-- `ENC_TS` (R102). -/
def execEncTs (s : State) : Result State :=
  if s.inLen ≠ 6 then raise s .length
  else finish s (encodeTimestamp (lanes s.inp 0 6)).toList 0 0x00

/-- `ENC_RAND` (R103). -/
def execEncRand (s : State) : Result State :=
  if s.inLen ≠ 10 then raise s .length
  else finish s (encodeRandomness (lanes s.inp 0 10)).toList 0 0x00

/-- `ENC` (R104). -/
def execEnc (s : State) : Result State :=
  if s.inLen ≠ 16 then raise s .length
  else finish s (encodeIdentifier (lanes s.inp 0 16)).toList 0 0x00

end Sys2Proof.Machine
end

