-- ==== Sys2Proof/Machine/OrderingFamily.lean ====
section
/-! DEFINITION. The byte-order and ordering commands (spec/42_ordering.md R160 to R164). -/

namespace Sys2Proof.Machine

/-- `TS_PACK` (R160): the length is checked before the range (R211). -/
def execTsPack (s : State) : Result State :=
  if s.inLen ≠ 10 then raise s .length
  else
    let t := s.tsIn.toInt
    if t < 0 ∨ t > 2 ^ 48 - 1 then raise s .range
    else finish s ((bigEndianBytes 6 t.toNat).toList ++ (lanes s.inp 0 10).toList) 0 0x00

/-- `TS_UNPACK` (R161). -/
def execTsUnpack (s : State) : Result State :=
  if s.inLen ≠ 16 then raise s .length
  else finish s [] (BitVec.ofNat 128 (bigEndian (lanes s.inp 0 6).toList)) 0x00

/-- `INT_TO_BYTES` (R162): neither `IN_LEN` nor `IN` is read. -/
def execIntToBytes (s : State) : Result State :=
  finish s (bigEndianBytes 16 s.intIn.toNat).toList 0 0x00

/-- `BYTES_TO_INT` (R163). -/
def execBytesToInt (s : State) : Result State :=
  if s.inLen ≠ 16 then raise s .length
  else finish s [] (BitVec.ofNat 128 (bigEndian (lanes s.inp 0 16).toList)) 0x00

/-- The `CMP_OUT` code of a relation (R28, R164). -/
def relationCode : Ordering → Byte
  | .lt => 0x01
  | .eq => 0x02
  | .gt => 0x03

/-- `CMP` (R164). -/
def execCmp (s : State) : Result State :=
  if s.inLen.toNat > 26 then raise s .length
  else finish s [] 0 (relationCode (lexCompare s.ident.toList s.inOperand))

end Sys2Proof.Machine
end

