-- ==== Sys2Proof/Machine/Dispatch.lean ====
section
/-! DEFINITION. `Execute()` for an assigned opcode (spec/70_reset_and_hazards.md R261): one arm per
command. -/

namespace Sys2Proof.Machine

def exec (i : Instr) (s : State) : Host.Outcome State Fault Refusal :=
  match i with
  | .encTs => Sys2Proof.Machine.execEncTs s
  | .encRand => Sys2Proof.Machine.execEncRand s
  | .enc => Sys2Proof.Machine.execEnc s
  | .decTs => Sys2Proof.Machine.execDecTs s
  | .decRand => Sys2Proof.Machine.execDecRand s
  | .dec => Sys2Proof.Machine.execDec s
  | .tsPack => Sys2Proof.Machine.execTsPack s
  | .tsUnpack => Sys2Proof.Machine.execTsUnpack s
  | .intToBytes => Sys2Proof.Machine.execIntToBytes s
  | .bytesToInt => Sys2Proof.Machine.execBytesToInt s
  | .cmp => Sys2Proof.Machine.execCmp s

end Sys2Proof.Machine
end

