-- ==== Sys2Proof/Machine/HostProgram.lean ====
section
/-! DEFINITION. The host: what one action does (spec/30_encoding.md R76), the accesses a host
statement stands for (R77, R78), and a program's encoding as text (R79). -/

namespace Sys2Proof.Machine

/-- The offset of `CMD` (R76). -/
def offCmd : Offset := 0x00
/-- The offset of `IN_LEN` (R76). -/
def offInLen : Offset := 0x01
/-- The offset of `CTRL` (R76). -/
def offCtrl : Offset := 0x02
/-- The offset of `STATUS` (R76). -/
def offStatus : Offset := 0x03
/-- The offset of `TS_IN + k` (R76, R78). -/
def offTsIn (k : Nat) : Offset := BitVec.ofNat 7 (0x08 + k)
/-- The offset of `INT_IN + k` (R76, R78). -/
def offIntIn (k : Nat) : Offset := BitVec.ofNat 7 (0x10 + k)
/-- The offset of `IN[i]` (R76). -/
def offIn (i : Nat) : Offset := BitVec.ofNat 7 (0x20 + i)
/-- The offset of `ID[i]` (R76). -/
def offId (i : Nat) : Offset := BitVec.ofNat 7 (0x40 + i)
/-- The offset of `WORD_OUT + k` (R76, R78). -/
def offWordOut (k : Nat) : Offset := BitVec.ofNat 7 (0x50 + k)
/-- The offset of `OUT[i]` (R76). -/
def offOut (i : Nat) : Offset := BitVec.ofNat 7 (0x60 + i)

/-- One host step (R20, R76): the action `a` is done and `rest` is left for later.  `WAIT` reads
`STATUS` once and stays until bit 1 of what it read is 0; what it reads is not kept (DESIGN CHOICE,
notes/assumptions/5.md). -/
def hostStep (s : State) (a : HostAction) (rest : List HostAction) : Result State :=
  let s := { s with host := rest }
  match a with
  | .wrb off v => hostWrite s off v
  | .rdb off x => .next ((hostRead s off).2.assign x (hostRead s off).1)
  | .start => hostWrite s offCtrl 0x01
  | .wait =>
    if (hostRead s offStatus).1.getLsbD 1 then
      .next { (hostRead s offStatus).2 with host := .wait :: rest }
    else .next (hostRead s offStatus).2
  | .wide off bits => .refused (.wideAccess off bits)
  | .assertReset => .next s.assertReset

/-- `WRB off(i), x(i)` for each element of a list, in order (R78). -/
def writeEach (off : Nat → Offset) (xs : List Byte) : List HostAction :=
  xs.zipIdx.map fun p => .wrb (off p.2) p.1

/-- `RDB off(i) -> name[i]` for `i = 0..n-1` (R78). -/
def readEach (off : Nat → Offset) (n : Nat) (name : String) : List HostAction :=
  (List.range n).map fun i => .rdb (off i) ⟨name, i⟩

/-- `code(c)`: the character's ASCII code (R78, spec/00_scope.md R16). -/
def charCode (c : Char) : Byte := BitVec.ofNat 8 c.toNat

/-- The length the host presents for a source-level input of `n` elements
(spec/20_memory.md R65). -/
def presentLength (n : Nat) : Byte := BitVec.ofNat 8 (min n 255)

/-- The basic actions a statement expands to (R77, R78). -/
def HostStmt.expand : HostStmt → List HostAction
  | .basic a => [a]
  | .command i => [.wrb offCmd (encode i), .start, .wait]
  | .ldinString s => .wrb offInLen (presentLength s.length) :: writeEach offIn (s.map charCode)
  | .ldinBytes xs => .wrb offInLen (presentLength xs.length) :: writeEach offIn xs
  | .ldlen n => [.wrb offInLen n]
  | .ldid xs => writeEach offId xs
  | .ldts v => writeEach offTsIn (bigEndianBytes 8 (v % 2 ^ 64).toNat).toList
  | .ldint v => writeEach offIntIn (bigEndianBytes 16 v).toList
  | .rdout n name => readEach offOut n name
  | .rdword name => readEach offWordOut 16 name

/-- The basic actions of a program, in program order (R79). -/
def expandProgram (p : List HostStmt) : List HostAction := p.flatMap HostStmt.expand

/-- A program given to the host from outside the machine (DESIGN CHOICE,
notes/assumptions/1.md). -/
def State.loadProgram (s : State) (p : List HostStmt) : State :=
  { s with host := expandProgram p }

/-- The value of a host variable, if a read has set it. -/
def State.var (s : State) (x : HostVar) : Option Byte :=
  (s.vars.find? fun p => p.1 = x).map (·.2)

/-- `name = BE(b)` of `RDWORD` (R78), where `b[k]` is the host variable `name[k]`; it stands once
all 16 bytes have been read. -/
def State.wordVar (s : State) (name : String) : Option Nat :=
  ((List.range 16).mapM fun k => s.var ⟨name, k⟩).map bigEndian

/-- One hex digit of R79's text, uppercase as in spec/95_test_vectors.md. -/
def hexDigit (n : Nat) : Char := if n < 10 then Char.ofNat (48 + n) else Char.ofNat (55 + n)

/-- Two hex digits. -/
def hexByte (n : Nat) : List Char := [hexDigit (n / 16), hexDigit (n % 16)]

/-- The text of one host action as R79 and spec/95_test_vectors.md write it: `W off=v`, `R off`, and
`R 03+` for the `WAIT` loop.  An action that is no 8-bit access has no text. -/
def HostAction.text : HostAction → Option (List Char)
  | .wrb off v => some (['W', ' '] ++ hexByte off.toNat ++ ['='] ++ hexByte v.toNat)
  | .rdb off _ => some (['R', ' '] ++ hexByte off.toNat)
  | .start => some ['W', ' ', '0', '2', '=', '0', '1']
  | .wait => some ['R', ' ', '0', '3', '+']
  | .wide _ _ => none
  | .assertReset => none

/-- A program's encoding (R79): the text of its accesses after expansion, in program order. -/
def programText (p : List HostStmt) : Option (List (List Char)) :=
  (expandProgram p).mapM HostAction.text

end Sys2Proof.Machine
end

