-- ==== Sys2Proof/Machine/Unit.lean ====
section
/-! DEFINITION. The unit's step (spec/70_reset_and_hazards.md R260, R261) and which agent moves next
(spec/10_state.md R20, spec/70_reset_and_hazards.md R262). -/

namespace Sys2Proof.Machine

/-- `Execute()` of R261 on the current registers: the command is the value of `CMD` now (R63, R70);
a reserved value completes with `IllegalCommand` (R202). -/
def unitStep (s : State) : Result State :=
  match decode s.cmd with
  | .ok i => exec i s
  | .error _ => raise s .illegalCommand

/-- Is it the unit's turn?  It has a step exactly when `BUSY = 1` (R260); it takes it when its
latency has run out, or when the host has nothing left to do (R262; DESIGN CHOICE,
notes/assumptions/2.md). -/
def State.unitTurn (s : State) : Bool := s.busy && (s.wait == 0 || s.host.isEmpty)

/-- A host step uses up one step of the latency of a command in flight (DESIGN CHOICE,
notes/assumptions/13.md). -/
def State.tick (s : State) : State := { s with wait := s.wait - 1 }

/-- One step of the interleaving of host and unit (R61, R262).  With no command in flight and no
host action left the block does nothing (R252; DEDUCED, notes/assumptions/7.md). -/
def nextStep (s : State) : Result State :=
  if s.unitTurn then unitStep s
  else
    match s.host with
    | [] => .next s
    | a :: rest => hostStep s.tick a rest

/-- The state with a command word placed in `CMD` and started, the unit to move next: what a host
write of `CMD` and a `START` leave when the latency is 0 (DESIGN CHOICE,
notes/assumptions/1.md). -/
def State.placeCommand (s : State) (nbits w : Nat) : State :=
  { s with cmd := BitVec.ofNat 8 (w % 2 ^ nbits), status := statusBusy, wait := 0 }

end Sys2Proof.Machine
end

