-- ==== Sys2Proof/Machine/Step.lean ====
section
/-! DEFINITION. One step of the machine, and the state in which the next step runs a given command
word. -/

namespace Sys2Proof.Machine

/-- One step: the unit's or the host's (spec/10_state.md R20). -/
def step (s : State) : Host.Outcome State Fault Refusal := nextStep s

/-- `s` with a command word where the unit's next step takes its command
(DESIGN CHOICE, notes/assumptions/1.md). -/
def State.withFetchWord (s : State) (nbits w : Nat) : State := s.placeCommand nbits w

end Sys2Proof.Machine
end

