-- ==== Sys2Proof/Safety.lean ====
section
/-! DEFINITION. What counts as a good state and a safe run, in the terms the statements use
(spec/10_state.md R25 to R28, R36, R37; spec/70_reset_and_hazards.md R263). -/

namespace Sys2Proof.Machine

/-- The only values `STATUS` can hold (R25). -/
def legalStatus : List Byte := [0x00, 0x02, 0x01, 0x05, 0x09, 0x0D, 0x11]

/-- The only values `OUT_LEN` can hold (R27). -/
def legalOutLen : List Byte := [0, 6, 10, 16, 26]

/-- What the spec says the registers can hold, in every state a run reaches. -/
structure State.Inv (s : State) : Prop where
  /-- R25 -/
  status_legal : s.status ∈ legalStatus
  /-- R26: `POS` is a lane of `IN`, and bits 6:5 are 0. -/
  errInfo_fields : s.errPos.toNat ≤ 25 ∧ s.errInfo.extractLsb' 5 2 = 0
  /-- R204: an overflow is reported at lane 0. -/
  overflow_at_zero : s.errOvf = true → s.errPos = 0
  /-- R26: 0 unless the last command completed with an alphabet error.  While `BUSY = 1` the
  register keeps its old byte (R259). -/
  errInfo_zero : s.busy = false → s.err ≠ 3 → s.errInfo = 0
  /-- R27 -/
  outLen_legal : s.outLen ∈ legalOutLen
  /-- R37: the lanes from `OUT_LEN` on are clear. -/
  out_clear : ∀ i : Fin 26, s.outLen.toNat ≤ i.val → s.out[i] = 0
  /-- R28 -/
  cmpOut_legal : s.cmpOut.toNat ≤ 3
  /-- R36, R27: a command that produces a word produces no lanes and no relation. -/
  word_alone : s.wordOut ≠ 0 → s.outLen = 0 ∧ s.cmpOut = 0
  /-- R28, R27: a command that produces a relation produces no lanes. -/
  relation_alone : s.cmpOut ≠ 0 → s.outLen = 0
  /-- R205, R41: before the first completion and after an error every output is clear. -/
  outputs_clear : s.busy = false → s.status ≠ 0x01 →
    s.outLen = 0 ∧ s.wordOut = 0 ∧ s.cmpOut = 0

/-- The end of a run: the host has nothing left to do and no command is in flight (R263). -/
def State.Final (s : State) : Prop := s.host = [] ∧ s.busy = false

/-- The machine stops at `s`: the step answers a fault or a refusal, a state that is never final and
refutes every claim (R263). -/
def State.Stuck (s : State) : Prop := ∀ t, step s ≠ .next t

/-- `t` is reached from `s` by some number of steps. -/
inductive Reaches : State → State → Prop where
  | refl (s : State) : Reaches s s
  | tail {s t u : State} : Reaches s t → step t = .next u → Reaches s u

/-- A run from `s` is safe when it never meets a fault or a refusal. -/
def State.Safe (s : State) : Prop := ∀ t, Reaches s t → ¬ t.Stuck

/-- Two states agree on every input register (R22, R23, R29, R30, R34, R35). -/
structure SameInputs (s t : State) : Prop where
  cmd   : t.cmd = s.cmd
  inLen : t.inLen = s.inLen
  tsIn  : t.tsIn = s.tsIn
  intIn : t.intIn = s.intIn
  inp   : t.inp = s.inp
  ident : t.ident = s.ident

/-- Two states agree on every output register and on `STATUS` (R25 to R28, R36, R37). -/
structure SameOutputs (s t : State) : Prop where
  status  : t.status = s.status
  errInfo : t.errInfo = s.errInfo
  outLen  : t.outLen = s.outLen
  cmpOut  : t.cmpOut = s.cmpOut
  wordOut : t.wordOut = s.wordOut
  out     : t.out = s.out

/-- Two states agree on the model's own fields: the host's remaining actions and variables, the
latency and the counter of draws. -/
structure SameHost (s t : State) : Prop where
  host  : t.host = s.host
  vars  : t.vars = s.vars
  wait  : t.wait = s.wait
  draws : t.draws = s.draws

/-- `t` is `s` after a completion without error (R210) with the lanes `lns`, the word `word` and the
relation `rel`: every output not produced is clear, and nothing else has changed. -/
structure Succeeds (s t : State) (lns : List Byte) (word : Word128) (rel : Byte) : Prop where
  inputs  : SameInputs s t
  host    : SameHost s t
  status  : t.status = 0x01
  errInfo : t.errInfo = 0x00
  outLen  : t.outLen.toNat = lns.length
  out     : ∀ i : Fin 26, t.out[i] = lns.getD i.val 0x00
  wordOut : t.wordOut = word
  cmpOut  : t.cmpOut = rel

/-- `t` is `s` after an error completion (R205) with the `STATUS.ERR` code `code` and the report
`info`: every output is clear, and nothing else has changed. -/
structure Fails (s t : State) (code info : Byte) : Prop where
  inputs  : SameInputs s t
  host    : SameHost s t
  status  : t.status = 0x01 ||| (code <<< 2)
  errInfo : t.errInfo = info
  outLen  : t.outLen = 0x00
  out     : ∀ i : Fin 26, t.out[i] = 0x00
  wordOut : t.wordOut = 0
  cmpOut  : t.cmpOut = 0x00

/-- `b[hi:lo]` as an unsigned value (R10). -/
def field (b : Byte) (hi lo : Nat) : Nat := b.toNat / 2 ^ lo % 2 ^ (hi + 1 - lo)

/-- The character at position `n` of the alphabet (R31). -/
def charOf (n : Nat) : Byte := encodeRom.toList.getD n 0x00

/-- The groups of a timestamp, row by row from the "bits" column of R100; a concatenation whose
right part has `w` bits is `a * 2 ^ w + b` (R11). -/
def timestampGroups (b : Nat → Byte) : List Nat :=
  [ field (b 0) 7 5,
    field (b 0) 4 0,
    field (b 1) 7 3,
    field (b 1) 2 0 * 2 ^ 2 + field (b 2) 7 6,
    field (b 2) 5 1,
    field (b 2) 0 0 * 2 ^ 4 + field (b 3) 7 4,
    field (b 3) 3 0 * 2 ^ 1 + field (b 4) 7 7,
    field (b 4) 6 2,
    field (b 4) 1 0 * 2 ^ 3 + field (b 5) 7 5,
    field (b 5) 4 0 ]

/-- The `n` base-32 digits of a value, the most significant first: digit `k` is bits
`5(n-1-k)+4 : 5(n-1-k)`. -/
def base32Digits (n V : Nat) : List Nat :=
  (List.range n).map fun k => (V >>> (5 * (n - 1 - k))) % 32

/-- The value of a numeral in base 32, the most significant digit first: `Σ v[k]·32^(n-1-k)`. -/
def base32Value : List Nat → Nat
  | [] => 0
  | v :: vs => v * 32 ^ vs.length + base32Value vs

/-- The bytes of R123, written with the shifts and masks of that rule on numbers. -/
def timestampBytes (v : Nat → Nat) : List Nat :=
  [ ((v 0 <<< 5) ||| v 1) &&& 0xFF,
    ((v 2 <<< 3) ||| (v 3 >>> 2)) &&& 0xFF,
    (((v 3 &&& 0x03) <<< 6) ||| (v 4 <<< 1) ||| (v 5 >>> 4)) &&& 0xFF,
    (((v 5 &&& 0x0F) <<< 4) ||| (v 6 >>> 1)) &&& 0xFF,
    (((v 6 &&& 0x01) <<< 7) ||| (v 7 <<< 2) ||| (v 8 >>> 3)) &&& 0xFF,
    (((v 8 &&& 0x07) <<< 5) ||| v 9) &&& 0xFF ]

/-- The five bytes of one half of R124, written with the shifts and masks of that rule on numbers. -/
def halfBytes (w : Nat → Nat) : List Nat :=
  [ ((w 0 <<< 3) ||| (w 1 >>> 2)) &&& 0xFF,
    (((w 1 &&& 0x03) <<< 6) ||| (w 2 <<< 1) ||| (w 3 >>> 4)) &&& 0xFF,
    (((w 3 &&& 0x0F) <<< 4) ||| (w 4 >>> 1)) &&& 0xFF,
    (((w 4 &&& 0x01) <<< 7) ||| (w 5 <<< 2) ||| (w 6 >>> 3)) &&& 0xFF,
    (((w 6 &&& 0x07) <<< 5) ||| w 7) &&& 0xFF ]

/-- The bytes of R124: the halves `h = 0, 1`. -/
def randomnessBytes (v : Nat → Nat) : List Nat :=
  halfBytes v ++ halfBytes fun j => v (8 + j)

/-- The first `n` lanes of `IN` as a list. -/
def State.inList (s : State) (n : Nat) : List Byte := s.inp.toList.take n

/-- The lane of `IN` at an index (0x00 past the last lane, which no statement reads). -/
def State.inLane (s : State) (i : Nat) : Byte := s.inp.toList.getD i 0x00

/-- `A <_lex B` of R14. -/
def LexLess (A B : List Byte) : Prop :=
  (∃ k, k < A.length ∧ k < B.length ∧ (A.getD k 0).toNat < (B.getD k 0).toNat ∧
    A.take k = B.take k) ∨
  (A.length < B.length ∧ A = B.take A.length)

/-- The byte the host would read at an offset of the window while `BUSY = 0` (R52). -/
def State.window (s : State) (off : Offset) : Byte := s.readLoc (locate off)

/-- A host statement other than a basic action: the command and operand pseudo-instructions of R77
and R78. -/
def HostStmt.Pseudo (p : HostStmt) : Prop := ∀ a, p ≠ .basic a

/-- The offsets of the RW registers in R21: `CMD`, `IN_LEN`, `TS_IN`, `INT_IN`, `IN`, `ID`. -/
def rwOffset (off : Offset) : Prop :=
  off.toNat ≤ 0x01 ∨ (0x08 ≤ off.toNat ∧ off.toNat ≤ 0x39) ∨
    (0x40 ≤ off.toNat ∧ off.toNat ≤ 0x4F)

/-- The offsets of the output registers in R21, whose reads R265 leaves open while `BUSY = 1`:
`ERR_INFO`, `OUT_LEN`, `CMP_OUT`, `WORD_OUT`, `OUT`. -/
def outputOffset (off : Offset) : Prop :=
  (0x04 ≤ off.toNat ∧ off.toNat ≤ 0x06) ∨ (0x50 ≤ off.toNat ∧ off.toNat ≤ 0x79)

/-- The offsets of the RO registers in R21: `STATUS` and the output registers. -/
def roOffset (off : Offset) : Prop := off.toNat = 0x03 ∨ outputOffset off

/-- The reserved offsets of R51. -/
def reservedOffset (off : Offset) : Prop :=
  off.toNat = 0x07 ∨ (0x3A ≤ off.toNat ∧ off.toNat ≤ 0x3F) ∨ 0x7A ≤ off.toNat

/-- Does an action start a command when the block is idle (R59): a write of `CTRL` with bit 0 = 1? -/
def HostAction.StartsCommand (a : HostAction) : Prop :=
  a = .start ∨ ∃ v, a = .wrb 0x02 v ∧ v.getLsbD 0 = true

/-- The action the host takes next, if it is the host that moves. -/
def State.hostMoves (s : State) (a : HostAction) (rest : List HostAction) : Prop :=
  s.unitTurn = false ∧ s.host = a :: rest

/-- Lane `i` of the first `n` is the lowest whose code is outside the alphabet (R122). -/
def State.BadLane (s : State) (n i : Nat) : Prop :=
  i < n ∧ s.inLane i ∉ encodeRom.toList ∧ ∀ j < i, s.inLane j ∈ encodeRom.toList

/-- The first character is one of `8`, `9`, `A` to `Z`: its value is above 7 (R121). -/
def State.FirstOverflows (s : State) : Prop := s.inLane 0 ∈ encodeRom.toList.drop 8

/-- The first `n` lanes hold the characters of the values `v` (R73, R32). -/
def State.Spells (s : State) (n : Nat) (v : Nat → Nat) : Prop :=
  ∀ k < n, v k < 32 ∧ s.inLane k = charOf (v k)

/-- Two states agree on what a command reads (R72, R34): `IN_LEN` and the lanes below it, and the
operand register of the commands that have one.  `INT_TO_BYTES` reads `INT_IN` alone. -/
def SameOperands (i : Instr) (s t : State) : Prop :=
  (i ≠ .intToBytes → t.inLen = s.inLen ∧ t.inList s.inLen.toNat = s.inList s.inLen.toNat) ∧
    (i = .tsPack → t.tsIn = s.tsIn) ∧
    (i = .intToBytes → t.intIn = s.intIn) ∧
    (i = .cmp → t.ident = s.ident)

end Sys2Proof.Machine
end

