-- ==== Sys2Proof/Certificates/Slice0/Obligations.lean ====
section
/-! DEFINITION. The statements for the provers.  Each docstring names the rule of spec/ it formalises;
`derived` marks a statement that rests on an inference the spec marks as its own, or on a choice of
the model that it names. -/

open Sys2Proof Sys2Proof.Machine

/-! ### Encoding, ROMs, reset -/

/-- R71: the opcode map, and that each word selects its command alone. -/
def Obligations.OpcodeMapSelectsCommands : Prop :=
  ∀ (c : Byte) (i : Instr), decode c = .ok i ↔
    (c, i) ∈ ([(0x01, .encTs), (0x02, .encRand), (0x03, .enc), (0x04, .decTs), (0x05, .decRand),
      (0x06, .dec), (0x07, .tsPack), (0x08, .tsUnpack), (0x09, .intToBytes), (0x0A, .bytesToInt),
      (0x0B, .cmp)] : List (Byte × Instr))

/-- derived (R70, R71): the decoder and the encoder agree in both directions, and on the words of
spec/opcode_table.json. -/
def Obligations.DecodeEncodeAgree : Prop :=
  (∀ i : Instr, i.wf = true → decode (encode i) = .ok i ∧
    decodeTableWord 8 (encode i).toNat = some i) ∧
  ∀ (c : Byte) (i : Instr), decode c = .ok i → encode i = c

/-- derived (R31, whose codes the spec takes from general knowledge and whose last clause is its
inference): the `ENCODE` ROM holds the codes of the alphabet in order; they rise with the value. -/
def Obligations.EncodeRomHoldsAlphabet : Prop :=
  encodeRom.toList = "0123456789ABCDEFGHJKMNPQRSTVWXYZ".toList.map charCode ∧
  ∀ g h : Group, g.toNat < h.toNat → (encodeChar g).toNat < (encodeChar h).toNat

/-- R32, R120: `DECODE` holds value `i` at the code `ENCODE[i]` and the stored marker 0xFF at every
other code; `lookup` reads it below 0x80 and gives `INVALID` from 0x80 up. -/
def Obligations.DecodeRomInvertsEncodeRom : Prop :=
  (∀ (c : Byte) (g : Group), lookup c = some g ↔ c = encodeChar g) ∧
  (∀ c : Byte, lookup c = none ↔ 0x80 ≤ c.toNat ∨ c ∉ encodeRom.toList) ∧
  ∀ (c : Byte) (h : c.toNat < 128),
    (∀ g, c = encodeChar g → decodeEntry c.toNat h = g.setWidth 8) ∧
    (c ∉ encodeRom.toList → decodeEntry c.toNat h = 0xFF)

/-- R41: after reset every register holds the value of R21's `reset` column. -/
def Obligations.ResetClearsEveryRegister : Prop :=
  State.reset.cmd = 0x00 ∧ State.reset.inLen = 0x00 ∧ State.reset.status = 0x00 ∧
  State.reset.errInfo = 0x00 ∧ State.reset.outLen = 0x00 ∧ State.reset.cmpOut = 0x00 ∧
  State.reset.tsIn = 0 ∧ State.reset.intIn = 0 ∧ State.reset.wordOut = 0 ∧
  State.reset.window 0x02 = 0x00 ∧ (∀ i : Fin 26, State.reset.inp[i] = 0x00) ∧ (∀ i : Fin 16, State.reset.ident[i] = 0x00) ∧
  ∀ i : Fin 26, State.reset.out[i] = 0x00

/-- derived (R250, R251; that the reset input is one of the host's actions is
notes/assumptions/4.md): it puts every register in its reset value, whether or not a command is in
flight; the command is abandoned. -/
def Obligations.ResetInputClearsEveryRegister : Prop :=
  ∀ (s : State) (rest : List HostAction), s.hostMoves .assertReset rest →
    ∃ t, step s = .next t ∧ SameInputs State.reset t ∧ SameOutputs State.reset t ∧ t.busy = false

/-! ### The encode family -/

/-- R102: `ENC_TS`, the groups by R100's table. -/
def Obligations.EncTsWritesTimestampCharacters : Prop :=
  ∀ s : State,
    (s.inLen ≠ 6 → ∃ t, exec .encTs s = .next t ∧ Fails s t 2 0x00) ∧
    (s.inLen = 6 → ∃ t, exec .encTs s = .next t ∧
      Succeeds s t ((timestampGroups s.inLane).map charOf) 0 0x00)

/-- R103: `ENC_RAND`, the groups as the 16 base-32 digits of the 80-bit value (R101). -/
def Obligations.EncRandWritesRandomnessDigits : Prop :=
  ∀ s : State,
    (s.inLen ≠ 10 → ∃ t, exec .encRand s = .next t ∧ Fails s t 2 0x00) ∧
    (s.inLen = 10 → ∃ t, exec .encRand s = .next t ∧
      Succeeds s t ((base32Digits 16 (bigEndian (s.inList 10))).map charOf) 0 0x00)

/-- R104: `ENC` writes the timestamp's characters, then the randomness's. -/
def Obligations.EncWritesBothParts : Prop :=
  ∀ s : State,
    (s.inLen ≠ 16 → ∃ t, exec .enc s = .next t ∧ Fails s t 2 0x00) ∧
    (s.inLen = 16 → ∃ t, exec .enc s = .next t ∧
      Succeeds s t ((timestampGroups s.inLane ++
        base32Digits 16 (bigEndian ((s.inList 16).drop 6))).map charOf) 0 0x00)

/-- derived (R105, and the second form in R100): the tables write the base-32 numeral of the whole
value, the most significant digit first. -/
def Obligations.EncodersWriteWholeValueNumeral : Prop :=
  ∀ s : State,
    (s.inLen = 6 → ∃ t, exec .encTs s = .next t ∧
      Succeeds s t ((base32Digits 10 (bigEndian (s.inList 6))).map charOf) 0 0x00) ∧
    (s.inLen = 16 → ∃ t, exec .enc s = .next t ∧
      Succeeds s t ((base32Digits 26 (bigEndian (s.inList 16))).map charOf) 0 0x00)

/-- derived (R106): every lane an encode command writes below `OUT_LEN` is a character of the
alphabet. -/
def Obligations.EncodersWriteAlphabetOnly : Prop :=
  ∀ (i : Instr) (s t : State), i = .encTs ∨ i = .encRand ∨ i = .enc → exec i s = .next t →
    ∀ k : Fin 26, k.val < t.outLen.toNat → t.out[k] ∈ encodeRom.toList

/-! ### The decode family -/

/-- R125: `DEC_TS`, with the scan of R122 and the bytes by R123. -/
def Obligations.DecTsUnpacksOrReports : Prop :=
  ∀ s : State,
    (s.inLen ≠ 10 → ∃ t, exec .decTs s = .next t ∧ Fails s t 2 0x00) ∧
    (s.inLen = 10 → ∀ v, s.Spells 10 v → v 0 ≤ 7 → ∃ t, exec .decTs s = .next t ∧
      Succeeds s t ((timestampBytes v).map (BitVec.ofNat 8)) 0 0x00) ∧
    (s.inLen = 10 → ∀ i, s.BadLane 10 i → ¬ s.FirstOverflows →
      ∃ t, exec .decTs s = .next t ∧ Fails s t 3 (BitVec.ofNat 8 i)) ∧
    (s.inLen = 10 → s.FirstOverflows → ∃ t, exec .decTs s = .next t ∧ Fails s t 3 0x80)

/-- R126: `DEC_RAND`, with the bytes by R124; no overflow check. -/
def Obligations.DecRandUnpacksOrReports : Prop :=
  ∀ s : State,
    (s.inLen ≠ 16 → ∃ t, exec .decRand s = .next t ∧ Fails s t 2 0x00) ∧
    (s.inLen = 16 → ∀ v, s.Spells 16 v → ∃ t, exec .decRand s = .next t ∧
      Succeeds s t ((randomnessBytes v).map (BitVec.ofNat 8)) 0 0x00) ∧
    (s.inLen = 16 → ∀ i, s.BadLane 16 i →
      ∃ t, exec .decRand s = .next t ∧ Fails s t 3 (BitVec.ofNat 8 i))

/-- R127: `DEC`, split at character 10; one scan over all 26 lanes. -/
def Obligations.DecUnpacksOrReports : Prop :=
  ∀ s : State,
    (s.inLen ≠ 26 → ∃ t, exec .dec s = .next t ∧ Fails s t 2 0x00) ∧
    (s.inLen = 26 → ∀ v, s.Spells 26 v → v 0 ≤ 7 → ∃ t, exec .dec s = .next t ∧
      Succeeds s t ((timestampBytes v ++ randomnessBytes fun k => v (10 + k)).map
        (BitVec.ofNat 8)) 0 0x00) ∧
    (s.inLen = 26 → ∀ i, s.BadLane 26 i → ¬ s.FirstOverflows →
      ∃ t, exec .dec s = .next t ∧ Fails s t 3 (BitVec.ofNat 8 i)) ∧
    (s.inLen = 26 → s.FirstOverflows → ∃ t, exec .dec s = .next t ∧ Fails s t 3 0x80)

/-- derived (R130, and the second forms in R123 and R124): the decoded bytes are the big-endian
bytes of the numeral's value. -/
def Obligations.DecodersReadWholeValueNumeral : Prop :=
  ∀ (s : State) (v : Nat → Nat),
    (s.inLen = 10 → s.Spells 10 v → v 0 ≤ 7 → ∃ t, exec .decTs s = .next t ∧
      Succeeds s t (bigEndianBytes 6 (base32Value ((List.range 10).map v))).toList 0 0x00) ∧
    (s.inLen = 16 → s.Spells 16 v → ∃ t, exec .decRand s = .next t ∧
      Succeeds s t (bigEndianBytes 10 (base32Value ((List.range 16).map v))).toList 0 0x00) ∧
    (s.inLen = 26 → s.Spells 26 v → v 0 ≤ 7 → ∃ t, exec .dec s = .next t ∧
      Succeeds s t (bigEndianBytes 16 (base32Value ((List.range 26).map v))).toList 0 0x00)

/-- derived (R129): which inputs each decode command accepts. -/
def Obligations.DecodersAcceptExactly : Prop :=
  ∀ s : State,
    ((∃ t, exec .decTs s = .next t ∧ t.status = 0x01) ↔
      s.inLen = 10 ∧ (∀ k < 10, s.inLane k ∈ encodeRom.toList) ∧
        s.inLane 0 ∈ encodeRom.toList.take 8) ∧
    ((∃ t, exec .decRand s = .next t ∧ t.status = 0x01) ↔
      s.inLen = 16 ∧ ∀ k < 16, s.inLane k ∈ encodeRom.toList) ∧
    ((∃ t, exec .dec s = .next t ∧ t.status = 0x01) ↔
      s.inLen = 26 ∧ (∀ k < 26, s.inLane k ∈ encodeRom.toList) ∧
        s.inLane 0 ∈ encodeRom.toList.take 8)

/-- derived (R128): what an encode command writes, the matching decode command reads back. -/
def Obligations.DecodeAfterEncodeGivesBytes : Prop :=
  ∀ s t u : State,
    (s.inLen = 6 → exec .encTs s = .next t → u.inLen = 10 → u.inList 10 = t.out.toList.take 10 →
      ∃ w, exec .decTs u = .next w ∧ Succeeds u w (s.inList 6) 0 0x00) ∧
    (s.inLen = 10 → exec .encRand s = .next t → u.inLen = 16 → u.inList 16 = t.out.toList.take 16 →
      ∃ w, exec .decRand u = .next w ∧ Succeeds u w (s.inList 10) 0 0x00) ∧
    (s.inLen = 16 → exec .enc s = .next t → u.inLen = 26 → u.inList 26 = t.out.toList →
      ∃ w, exec .dec u = .next w ∧ Succeeds u w (s.inList 16) 0 0x00)

/-- derived (R128): what a decode command accepts, the matching encode command writes again. -/
def Obligations.EncodeAfterDecodeGivesCharacters : Prop :=
  ∀ s t u : State,
    (exec .decTs s = .next t → t.status = 0x01 → u.inLen = 6 → u.inList 6 = t.out.toList.take 6 →
      ∃ w, exec .encTs u = .next w ∧ Succeeds u w (s.inList 10) 0 0x00) ∧
    (exec .decRand s = .next t → t.status = 0x01 → u.inLen = 10 →
      u.inList 10 = t.out.toList.take 10 →
      ∃ w, exec .encRand u = .next w ∧ Succeeds u w (s.inList 16) 0 0x00) ∧
    (exec .dec s = .next t → t.status = 0x01 → u.inLen = 16 → u.inList 16 = t.out.toList.take 16 →
      ∃ w, exec .enc u = .next w ∧ Succeeds u w (s.inList 26) 0 0x00)

/-! ### The byte-order and ordering family -/

/-- R160: `TS_PACK` places the milliseconds in bytes 0 to 5 and copies the ten bytes; the length is
checked before the range. -/
def Obligations.TsPackPlacesTimestamp : Prop :=
  ∀ s : State,
    (s.inLen ≠ 10 → ∃ t, exec .tsPack s = .next t ∧ Fails s t 2 0x00) ∧
    (s.inLen = 10 → (s.tsIn.toInt < 0 ∨ 2 ^ 48 ≤ s.tsIn.toInt) →
      ∃ t, exec .tsPack s = .next t ∧ Fails s t 4 0x00) ∧
    (s.inLen = 10 → 0 ≤ s.tsIn.toInt → s.tsIn.toInt < 2 ^ 48 →
      ∃ t lns, exec .tsPack s = .next t ∧ Succeeds s t lns 0 0x00 ∧ lns.length = 16 ∧
        (bigEndian (lns.take 6) : Int) = s.tsIn.toInt ∧ lns.drop 6 = s.inList 10)

/-- R161: `TS_UNPACK` gives the big-endian value of bytes 0 to 5, zero-extended. -/
def Obligations.TsUnpackReadsTimestamp : Prop :=
  ∀ s : State,
    (s.inLen ≠ 16 → ∃ t, exec .tsUnpack s = .next t ∧ Fails s t 2 0x00) ∧
    (s.inLen = 16 → ∃ t w, exec .tsUnpack s = .next t ∧ Succeeds s t [] w 0x00 ∧
      w.toNat = ∑ i ∈ Finset.range 6, (s.inLane i).toNat * 256 ^ (5 - i))

/-- R162: `INT_TO_BYTES` writes the integer's bytes, the most significant first, whatever `IN_LEN`
and `IN` hold. -/
def Obligations.IntToBytesWritesBigEndian : Prop :=
  ∀ s : State, ∃ t lns, exec .intToBytes s = .next t ∧ Succeeds s t lns 0 0x00 ∧
    lns.length = 16 ∧ ∀ i < 16, lns.getD i 0x00 = s.intIn.extractLsb' (120 - 8 * i) 8

/-- R163: `BYTES_TO_INT` gives the big-endian value of the 16 bytes. -/
def Obligations.BytesToIntReadsBigEndian : Prop :=
  ∀ s : State,
    (s.inLen ≠ 16 → ∃ t, exec .bytesToInt s = .next t ∧ Fails s t 2 0x00) ∧
    (s.inLen = 16 → ∃ t w, exec .bytesToInt s = .next t ∧ Succeeds s t [] w 0x00 ∧
      w.toNat = ∑ i ∈ Finset.range 16, (s.inLane i).toNat * 256 ^ (15 - i))

/-- R164: `CMP` compares `ID` with `IN[0..IN_LEN-1]` by the order of R14; only a length above 26 is
an error. -/
def Obligations.CmpComparesLexicographically : Prop :=
  ∀ s : State,
    (26 < s.inLen.toNat → ∃ t, exec .cmp s = .next t ∧ Fails s t 2 0x00) ∧
    (s.inLen.toNat ≤ 26 → ∃ t r, exec .cmp s = .next t ∧ Succeeds s t [] 0 r ∧
      (LexLess s.ident.toList (s.inList s.inLen.toNat) → r = 0x01) ∧
      (s.ident.toList = s.inList s.inLen.toNat → r = 0x02) ∧
      (¬ LexLess s.ident.toList (s.inList s.inLen.toNat) →
        s.ident.toList ≠ s.inList s.inLen.toNat → r = 0x03))

/-- derived (R170): byte order, integer order and string order are one. -/
def Obligations.OrdersAgree : Prop :=
  ∀ a b t u : State, a.inLen = 16 → b.inLen = 16 → exec .enc a = .next t → exec .enc b = .next u →
    (LexLess (a.inList 16) (b.inList 16) ↔
      bigEndian (a.inList 16) < bigEndian (b.inList 16)) ∧
    (LexLess (a.inList 16) (b.inList 16) ↔ LexLess t.out.toList u.out.toList)

/-- derived (R171): `INT_TO_BYTES` then `CMP` compares the identifier with an integer. -/
def Obligations.CmpAgreesWithInteger : Prop :=
  ∀ s t u : State, exec .intToBytes s = .next t → u.inLen = 16 →
    u.inList 16 = t.out.toList.take 16 →
    ∃ w, exec .cmp u = .next w ∧
      (w.cmpOut = 0x01 ↔ bigEndian u.ident.toList < s.intIn.toNat) ∧
      (w.cmpOut = 0x02 ↔ bigEndian u.ident.toList = s.intIn.toNat) ∧
      (w.cmpOut = 0x03 ↔ s.intIn.toNat < bigEndian u.ident.toList)

/-- derived (R173): identifiers packed at rising timestamps rise, whatever the ten bytes. -/
def Obligations.TimestampDominatesOrder : Prop :=
  ∀ a b t u : State, exec .tsPack a = .next t → t.status = 0x01 → exec .tsPack b = .next u →
    u.status = 0x01 → a.tsIn.toInt < b.tsIn.toInt →
    LexLess (t.out.toList.take 16) (u.out.toList.take 16)

/-- derived (R174): the round trips of the byte-order commands. -/
def Obligations.ByteOrderRoundTrips : Prop :=
  ∀ s t u : State,
    (s.inLen = 16 → exec .bytesToInt s = .next t → u.intIn = t.wordOut →
      ∃ w, exec .intToBytes u = .next w ∧ Succeeds u w (s.inList 16) 0 0x00) ∧
    (exec .intToBytes s = .next t → u.inLen = 16 → u.inList 16 = t.out.toList.take 16 →
      ∃ w, exec .bytesToInt u = .next w ∧ Succeeds u w [] s.intIn 0x00) ∧
    (exec .tsPack s = .next t → t.status = 0x01 → u.inLen = 16 →
      u.inList 16 = t.out.toList.take 16 →
      ∃ w ms, exec .tsUnpack u = .next w ∧ Succeeds u w [] ms 0x00 ∧
        (ms.toNat : Int) = s.tsIn.toInt) ∧
    (s.inLen = 16 → exec .tsUnpack s = .next t → u.inLen = 10 →
      u.tsIn = t.wordOut.setWidth 64 → u.inList 10 = (s.inList 16).drop 6 →
      ∃ w, exec .tsPack u = .next w ∧ Succeeds u w (s.inList 16) 0 0x00)

/-! ### All commands -/

/-- R202: a reserved value of `CMD` completes with `IllegalCommand`, whatever the inputs. -/
def Obligations.ReservedCommandReportsIllegal : Prop :=
  ∀ s : State, s.unitTurn = true → (s.cmd = 0x00 ∨ 0x0C ≤ s.cmd.toNat) →
    ∃ t, step s = .next t ∧ Fails s t 1 0x00

/-- derived (R260; whose turn it is rests on notes/assumptions/2.md): the unit's step is atomic and
completes the command with or without an error, writing the outputs and `STATUS` and nothing else;
after it `BUSY = 0` and `DONE = 1`. -/
def Obligations.UnitStepCompletesCommand : Prop :=
  ∀ s : State, s.unitTurn = true → s.busy = true ∧ ∃ t, step s = .next t ∧
    ((∃ lns word rel, Succeeds s t lns word rel) ∨ ∃ code info, Fails s t code info) ∧
    t.busy = false ∧ t.done = true

/-- R131: a command that completes with an error leaves every output clear and the inputs as they
were; the report is 0 unless the error is an alphabet error (R205). -/
def Obligations.ErrorsClearEveryOutput : Prop :=
  ∀ (i : Instr) (s t : State), exec i s = .next t → t.err ≠ 0 →
    Fails s t (t.err.setWidth 8) t.errInfo ∧ (t.err ≠ 3 → t.errInfo = 0x00)

/-- derived (R39): what a command leaves in the outputs depends on its operands alone; the lanes at
and above `IN_LEN` (R34) and every earlier output do not matter. -/
def Obligations.OutputsDependOnOperandsOnly : Prop :=
  ∀ (i : Instr) (s t u w : State), SameOperands i s t → exec i s = .next u → exec i t = .next w →
    SameOutputs u w

/-- derived (R267): the same command again on its own result changes nothing. -/
def Obligations.RepeatingCommandChangesNothing : Prop :=
  ∀ (i : Instr) (s t : State), exec i s = .next t → exec i t = .next t

/-! ### The step -/

/-- derived (R260, R261), and in part the model's choice.  When it is the unit's turn and `CMD`
decodes, the step is that command's `exec`; whose turn it is, and that a host step uses up one step of
the latency, are notes/assumptions/2.md and 13.md.  When the host moves, the step is its next action.
An idle block with no host action left stays as it is: notes/assumptions/7.md.  A command word placed
by `withFetchWord` is the next step's: notes/assumptions/1.md. -/
def Obligations.StepRunsDecodedCommand : Prop :=
  (∀ (s : State) (i : Instr), s.unitTurn = true → decode s.cmd = .ok i → step s = exec i s) ∧
  (∀ (s : State) (a : HostAction) (rest : List HostAction), s.hostMoves a rest →
    step s = hostStep s.tick a rest) ∧
  (∀ s : State, s.unitTurn = false → s.host = [] → step s = .next s) ∧
  ∀ (s : State) (i : Instr), step (s.withFetchWord 8 (encode i).toNat) =
    exec i (s.withFetchWord 8 (encode i).toNat)

/-- derived (R25 to R28, R36, R37, R205; its clause on `ERR_INFO` while `BUSY = 1` is
notes/assumptions/10.md): the invariant holds after reset. -/
def Obligations.ResetMeetsInvariant : Prop := State.reset.Inv

/-- derived (R25 to R28, R36, R37, R205): every step, the unit's or the host's, keeps the invariant.
That `ERR_INFO` need not be 0 while `BUSY = 1` is notes/assumptions/10.md; the reset input, one of the
host's actions, is notes/assumptions/4.md. -/
def Obligations.StepKeepsInvariant : Prop :=
  ∀ s t : State, s.Inv → step s = .next t → t.Inv

/-- derived (R216, R264; R54 for the refusal, which takes in the widths below 8 as well,
notes/assumptions/17.md): the model faults on a host write while busy to a place that is neither
reserved nor read-only, and on nothing else; where the host's next action, if it moves, is well formed,
the model refuses an access of a width other than 8 bits, and nothing else. -/
def Obligations.StopsExactlyOnHazards : Prop :=
  (∀ (s : State) (f : Fault), step s = .fault f ↔
    s.busy = true ∧ ∃ rest off v, f = .hostWriteWhileBusy off ∧
      (rwOffset off ∨ off = 0x02) ∧
      (s.hostMoves (.wrb off v) rest ∨ off = 0x02 ∧ s.hostMoves .start rest)) ∧
  ∀ (s : State) (r : Refusal), (∀ a rest, s.hostMoves a rest → a.wf = true) →
    (step s = .refused r ↔
      ∃ rest off n, n ≠ 8 ∧ r = .wideAccess off n ∧ s.hostMoves (.wide off n) rest)

/-- derived (R25, R59; that the reset input is one of the host's actions is
notes/assumptions/4.md): `BUSY` rises only by a `START` and falls only by the unit's step or a
reset. -/
def Obligations.BusyChangesOnlyByHandshake : Prop :=
  ∀ s t : State, step s = .next t →
    (s.busy = false → t.busy = true →
      ∃ a rest, s.hostMoves a rest ∧ a.StartsCommand ∧ t.status = 0x02) ∧
    (s.busy = true → t.busy = false →
      s.unitTurn = true ∨ ∃ rest, s.hostMoves .assertReset rest)

/-- derived (R63; that the reset input is one of the host's actions is notes/assumptions/4.md):
while `BUSY = 1` no step but a reset changes an input register. -/
def Obligations.InputsFixedWhileBusy : Prop :=
  ∀ s t : State, s.busy = true → step s = .next t →
    (∀ rest, ¬ s.hostMoves .assertReset rest) → SameInputs s t

/-- derived (R266, R214): the outputs and the report of a completed command stay, through every step
of the host but a `START` or a reset. -/
def Obligations.OutputsStayUntilNextStart : Prop :=
  ∀ (s t : State) (a : HostAction) (rest : List HostAction), s.hostMoves a rest →
    step s = .next t → ¬ a.StartsCommand → a ≠ .assertReset → SameOutputs s t

/-! ### The window -/

/-- R24: a write of `CTRL` with bit 0 = 1 while idle starts the command, that is, sets `STATUS` to
0x02 and changes no other register (R259); with bit 0 = 0 it changes nothing; bits 7:1 do not matter;
a read of `CTRL` gives 0x00. -/
def Obligations.CtrlStartsCommand : Prop :=
  (∀ (s : State) (v : Byte) (rest : List HostAction), s.busy = false →
    s.host = .wrb 0x02 v :: rest → ∃ t, step s = .next t ∧ SameInputs s t ∧
      t.status = (if v.getLsbD 0 then 0x02 else s.status) ∧ t.errInfo = s.errInfo ∧
      t.outLen = s.outLen ∧ t.cmpOut = s.cmpOut ∧ t.wordOut = s.wordOut ∧ t.out = s.out) ∧
  ∀ s : State, (hostRead s 0x02).1 = 0x00

/-- derived (R53, R50): a write at an RW offset while idle stores the byte exactly; every other
offset of the window reads as before. -/
def Obligations.HostWriteStoresByte : Prop :=
  ∀ (s : State) (off : Offset) (v : Byte) (rest : List HostAction), s.busy = false → rwOffset off →
    s.host = .wrb off v :: rest → ∃ t, step s = .next t ∧ t.window off = v ∧
      (∀ p, p ≠ off → t.window p = s.window p) ∧ SameOutputs s t ∧ t.host = rest

/-- R51: reserved offsets and `CTRL` read 0x00; a write to a reserved offset or a read-only register
changes no register, idle or busy. -/
def Obligations.ReservedAndReadOnlyWritesIgnored : Prop :=
  (∀ (s : State) (off : Offset), reservedOffset off ∨ off = 0x02 → hostRead s off = (0x00, s)) ∧
  ∀ (s : State) (off : Offset) (v : Byte) (rest : List HostAction),
    reservedOffset off ∨ roOffset off → s.hostMoves (.wrb off v) rest →
    ∃ t, step s = .next t ∧ SameInputs s t ∧ SameOutputs s t

/-- derived (R52, R59, R265; the value of a busy read is free, notes/assumptions/3.md, and how host
variables are held is the model's choice, notes/assumptions/6.md): a read puts
one byte in the host's variable and changes no register.  It is the byte at the offset unless
`BUSY = 1` and the offset is an output's. -/
def Obligations.HostReadHasNoSideEffect : Prop :=
  ∀ (s : State) (off : Offset) (x : HostVar) (rest : List HostAction),
    s.hostMoves (.rdb off x) rest → ∃ t v, step s = .next t ∧ t.var x = some v ∧
      (∀ y, y ≠ x → t.var y = s.var y) ∧ SameInputs s t ∧ SameOutputs s t ∧ t.host = rest ∧
      (s.busy = false ∨ ¬ outputOffset off → v = s.window off)

/-- R57: the window image of each word register is its big-endian form. -/
def Obligations.WordRegistersAreBigEndian : Prop :=
  ∀ s : State,
    (List.range 8).map (fun k => s.window (BitVec.ofNat 7 (0x08 + k))) =
      (bigEndianBytes 8 s.tsIn.toNat).toList ∧
    (List.range 16).map (fun k => s.window (BitVec.ofNat 7 (0x10 + k))) =
      (bigEndianBytes 16 s.intIn.toNat).toList ∧
    (List.range 16).map (fun k => s.window (BitVec.ofNat 7 (0x50 + k))) =
      (bigEndianBytes 16 s.wordOut.toNat).toList

/-- derived (R264, R53): a host write while busy, at an RW offset or `CTRL`, is the named fault. -/
def Obligations.WriteWhileBusyFaults : Prop :=
  ∀ (s : State) (off : Offset) (v : Byte) (rest : List HostAction), s.busy = true →
    rwOffset off ∨ off = 0x02 → s.hostMoves (.wrb off v) rest →
    step s = .fault (.hostWriteWhileBusy off)

/-! ### Host programs -/

/-- derived (R262, R76; the latency is free, notes/assumptions/2.md, and each poll of the `WAIT` uses
up one step of it, notes/assumptions/13.md): a `WAIT` behind a started command ends.  When it has, the command has completed, and with its own result. -/
def Obligations.WaitEndsAfterLatency : Prop :=
  ∀ (s : State) (rest : List HostAction), s.busy = true → s.host = .wait :: rest →
    ∃ t u : State, Host.Core.run core (s.wait + 2) s = .next t ∧ t.host = rest ∧ t.busy = false ∧
      unitStep s = .next u ∧ SameInputs u t ∧ SameOutputs u t

/-- derived (R77; the latency is free, notes/assumptions/2.md): a mnemonic alone on a line runs its
command to completion.  That the host variables are unchanged after its `WAIT` is the model's choice:
the byte a `WAIT` reads is not recorded, notes/assumptions/5.md. -/
def Obligations.CommandStatementRunsCommand : Prop :=
  ∀ (s : State) (i : Instr) (rest : List HostAction), s.busy = false →
    s.host = (HostStmt.command i).expand ++ rest →
    ∃ (k : Nat) (t u : State), Host.Core.run core k s = .next t ∧ t.host = rest ∧ t.busy = false ∧
      t.vars = s.vars ∧ exec i { s with cmd := encode i } = .next u ∧
      SameInputs u t ∧ SameOutputs u t

/-- derived (R78): `LDIN`, of bytes or of a string, loads `IN_LEN` and the lanes; `LDLEN` loads
`IN_LEN` alone; both leave every other register. -/
def Obligations.LdinLoadsLanes : Prop :=
  ∀ (s : State) (rest : List HostAction), s.busy = false →
    (∀ (p : HostStmt) (xs : List Byte), p.wf = true →
      (p = .ldinBytes xs ∨ ∃ cs, p = .ldinString cs ∧ xs = cs.map charCode) →
      s.host = p.expand ++ rest →
      ∃ t : State, Host.Core.run core (xs.length + 1) s = .next t ∧ t.host = rest ∧
        t.inLen.toNat = xs.length ∧
        (∀ i < 26, t.inLane i = if i < xs.length then xs.getD i 0x00 else s.inLane i) ∧
        t.cmd = s.cmd ∧ t.tsIn = s.tsIn ∧ t.intIn = s.intIn ∧ t.ident = s.ident ∧
        SameOutputs s t) ∧
    ∀ n, s.host = (HostStmt.ldlen n).expand ++ rest →
      ∃ t : State, Host.Core.run core 1 s = .next t ∧ t.host = rest ∧ t.inLen = n ∧
        t.inp = s.inp ∧ t.cmd = s.cmd ∧ t.tsIn = s.tsIn ∧ t.intIn = s.intIn ∧
        t.ident = s.ident ∧ SameOutputs s t

/-- derived (R78): `LDID`, `LDTS` and `LDINT` load their register and leave every other one. -/
def Obligations.OperandStatementsLoadRegisters : Prop :=
  ∀ (s : State) (rest : List HostAction), s.busy = false →
    (∀ xs, (HostStmt.ldid xs).wf = true → s.host = (HostStmt.ldid xs).expand ++ rest →
      ∃ t : State, Host.Core.run core 16 s = .next t ∧ t.host = rest ∧ t.ident.toList = xs ∧
        t.cmd = s.cmd ∧ t.inLen = s.inLen ∧ t.tsIn = s.tsIn ∧ t.intIn = s.intIn ∧
        t.inp = s.inp ∧ SameOutputs s t) ∧
    (∀ v, (HostStmt.ldts v).wf = true → s.host = (HostStmt.ldts v).expand ++ rest →
      ∃ t : State, Host.Core.run core 8 s = .next t ∧ t.host = rest ∧ t.tsIn.toInt = v ∧
        t.cmd = s.cmd ∧ t.inLen = s.inLen ∧ t.intIn = s.intIn ∧ t.inp = s.inp ∧
        t.ident = s.ident ∧ SameOutputs s t) ∧
    (∀ v, (HostStmt.ldint v).wf = true → s.host = (HostStmt.ldint v).expand ++ rest →
      ∃ t : State, Host.Core.run core 16 s = .next t ∧ t.host = rest ∧ t.intIn.toNat = v ∧
        t.cmd = s.cmd ∧ t.inLen = s.inLen ∧ t.tsIn = s.tsIn ∧ t.inp = s.inp ∧
        t.ident = s.ident ∧ SameOutputs s t)

/-- derived (R78): `RDOUT` and `RDWORD` read the outputs of a completed command into the host's
variables.  That element `i` of `name` is the variable of `name` and `i`, and that the bytes of an
`RDWORD` are kept as the elements of `name` itself, is the model's choice: notes/assumptions/6.md. -/
def Obligations.ResultStatementsReadOutputs : Prop :=
  ∀ (s : State) (rest : List HostAction) (name : String), s.busy = false →
    (∀ n, (HostStmt.rdout n name).wf = true → s.host = (HostStmt.rdout n name).expand ++ rest →
      ∃ t : State, Host.Core.run core n s = .next t ∧ t.host = rest ∧
        (∀ i < n, t.var ⟨name, i⟩ = s.out.toList[i]?) ∧ SameInputs s t ∧ SameOutputs s t) ∧
    (s.host = (HostStmt.rdword name).expand ++ rest →
      ∃ t : State, Host.Core.run core 16 s = .next t ∧ t.host = rest ∧
        t.wordVar name = some s.wordOut.toNat ∧ SameInputs s t ∧ SameOutputs s t)

/-- derived (R65): a length above 255 is presented as 255, so a command accepts the presented length
exactly when it accepts the length itself. -/
def Obligations.PresentedLengthStaysWrong : Prop :=
  ∀ n : Nat,
    (∀ k ≤ 26, presentLength n = BitVec.ofNat 8 k ↔ n = k) ∧
    (26 < (presentLength n).toNat ↔ 26 < n) ∧
    (255 ≤ n → presentLength n = 0xFF)

/-- derived (R264, R77, R78): a program made of command and operand statements never meets a fault
or a refusal, whatever the latency. -/
def Obligations.StatementProgramsNeverStop : Prop :=
  ∀ (s : State) (p : List HostStmt), s.busy = false →
    (∀ x ∈ p, x.Pseudo ∧ x.wf = true) → (s.loadProgram p).Safe

/-- derived (R262, R263): such a program comes to the end of its run, whatever the latency. -/
def Obligations.StatementProgramsReachEnd : Prop :=
  ∀ (s : State) (p : List HostStmt), s.busy = false →
    (∀ x ∈ p, x.Pseudo ∧ x.wf = true) →
    ∃ (k : Nat) (t : State), Host.Core.run core k (s.loadProgram p) = .next t ∧ t.Final
end

