-- ==== Sys2Proof/Laws/Bytes.lean ====
section
/-! SUPPORT. Lane slices, big-endian values and the bytes of a word (spec/00_scope.md R13,
spec/20_memory.md R57). -/

namespace Sys2Proof.Machine

section lanes
variable {α β : Type} {m n : Nat}

@[simp] theorem getElem_lanes (v : Vector α m) (start : Nat) (h : start + n ≤ m) (i : Nat)
    (hi : i < n) : (lanes v start n h)[i] = v[start + i] := by
  simp [lanes]

@[simp] theorem getElem_mapLanes (f : α → β) (v : Vector α n) (i : Nat) (hi : i < n) :
    (mapLanes f v)[i] = f v[i] := by
  simp [mapLanes]

theorem toList_lanes_zero (v : Vector α m) (h : 0 + n ≤ m) :
    (lanes v 0 n h).toList = v.toList.take n := by
  apply List.ext_getElem
  · simp; omega
  · intro i h1 h2
    simp

theorem toList_lanes (v : Vector α m) (start : Nat) (h : start + n ≤ m) :
    (lanes v start n h).toList = (v.toList.drop start).take n := by
  apply List.ext_getElem
  · simp; omega
  · intro i h1 h2
    simp

theorem toList_mapLanes (f : α → β) (v : Vector α n) :
    (mapLanes f v).toList = v.toList.map f := by
  apply List.ext_getElem
  · simp
  · intro i h1 h2
    simp

/-- Two slices side by side are the whole. -/
theorem lanes_append_lanes {k : Nat} (v : Vector α (n + k)) (h1 : 0 + n ≤ n + k)
    (h2 : n + k ≤ n + k) : lanes v 0 n h1 ++ lanes v n k h2 = v := by
  apply Vector.ext
  intro i hi
  rw [Vector.getElem_append]
  split
  · simp
  · simp only [getElem_lanes]
    congr 1
    omega

theorem lanes_append_left {k : Nat} (a : Vector α n) (b : Vector α k) (h : 0 + n ≤ n + k) :
    lanes (a ++ b) 0 n h = a := by
  apply Vector.ext
  intro i hi
  simp [hi]

theorem lanes_append_right {k : Nat} (a : Vector α n) (b : Vector α k) (h : n + k ≤ n + k) :
    lanes (a ++ b) n k h = b := by
  apply Vector.ext
  intro i hi
  simp

end lanes

/-! ### Big-endian values -/

theorem bigEndian_lt (bs : List Byte) : bigEndian bs < 256 ^ bs.length := by
  induction bs with
  | nil => simp [bigEndian]
  | cons b bs ih =>
    have hb : b.toNat ≤ 255 := by have := b.isLt; omega
    have : b.toNat * 256 ^ bs.length ≤ 255 * 256 ^ bs.length := Nat.mul_le_mul_right _ hb
    simp only [bigEndian, List.length_cons, Nat.pow_succ]
    omega

theorem bigEndian_append (as bs : List Byte) :
    bigEndian (as ++ bs) = bigEndian as * 256 ^ bs.length + bigEndian bs := by
  induction as with
  | nil => simp [bigEndian]
  | cons a as ih =>
    simp only [List.cons_append, bigEndian, ih, List.length_append, Nat.pow_add]
    ring

/-- A big-endian value determines its bytes, given their number. -/
theorem bigEndian_inj : ∀ {as bs : List Byte}, as.length = bs.length →
    bigEndian as = bigEndian bs → as = bs
  | [], [], _, _ => rfl
  | a :: as, b :: bs, hl, h => by
    have hl' : as.length = bs.length := by simpa using hl
    have ha := bigEndian_lt as
    have hb := bigEndian_lt bs
    simp only [bigEndian, hl'] at h ha
    set p := 256 ^ bs.length
    have hp : 0 < p := by positivity
    have hab : a.toNat = b.toNat := by
      have h1 := congrArg (· / p) h
      simpa [Nat.mul_comm _ p, Nat.mul_add_div hp, Nat.div_eq_of_lt ha, Nat.div_eq_of_lt hb] using h1
    rw [hab] at h
    rw [BitVec.eq_of_toNat_eq hab, bigEndian_inj hl' (by omega)]

@[simp] theorem getElem_bigEndianBytes (n v i : Nat) (h : i < n) :
    (bigEndianBytes n v)[i] = BitVec.ofNat 8 (v >>> (8 * (n - 1 - i))) := by
  simp [bigEndianBytes]

theorem toList_bigEndianBytes_succ (n v : Nat) :
    (bigEndianBytes (n + 1) v).toList =
      BitVec.ofNat 8 (v >>> (8 * n)) :: (bigEndianBytes n v).toList := by
  apply List.ext_getElem
  · simp
  · intro i h1 h2
    cases i with
    | zero => simp
    | succ i =>
      simp only [Vector.getElem_toList, getElem_bigEndianBytes, List.getElem_cons_succ]
      congr 2
      omega

/-- `BE(BE_n(v)) = v mod 256^n` (R13). -/
theorem bigEndian_bigEndianBytes (n v : Nat) :
    bigEndian (bigEndianBytes n v).toList = v % 256 ^ n := by
  induction n with
  | zero =>
    rw [Vector.toList_eq_nil_iff.2 rfl]
    simp [bigEndian, Nat.mod_one]
  | succ n ih =>
    rw [toList_bigEndianBytes_succ]
    simp only [bigEndian, ih, Vector.length_toList, BitVec.toNat_ofNat, Nat.shiftRight_eq_div_pow]
    rw [Nat.pow_succ 256 n, Nat.mod_mul, Nat.pow_mul]
    norm_num
    ring

/-- `BE_n(BE(B)) = B` (R13). -/
theorem bigEndianBytes_bigEndian {n : Nat} (v : Vector Byte n) :
    bigEndianBytes n (bigEndian v.toList) = v := by
  have h : (bigEndianBytes n (bigEndian v.toList)).toList = v.toList := by
    apply bigEndian_inj
    · simp
    · rw [bigEndian_bigEndianBytes]
      exact Nat.mod_eq_of_lt (by simpa using bigEndian_lt v.toList)
  exact Vector.toList_inj.1 h

/-! ### The bytes of a word -/

theorem getLsbD_getByte {n : Nat} (w : BitVec n) (sh i : Nat) :
    (getByte w sh).getLsbD i = (decide (i < 8) && w.getLsbD (sh + i)) := by
  simp [getByte]

theorem getLsbD_putByte {n : Nat} (w : BitVec n) (sh : Nat) (v : Byte) (i : Nat) (hn : 8 ≤ n)
    (hi : i < n) :
    (putByte w sh v).getLsbD i =
      if sh ≤ i ∧ i < sh + 8 then v.getLsbD (i - sh) else w.getLsbD i := by
  have hFF : ∀ j, (0xFF : BitVec n).getLsbD j = decide (j < 8) := by
    intro j
    have : (0xFF : BitVec n) = (BitVec.allOnes 8).setWidth n := by
      apply BitVec.eq_of_toNat_eq
      simp [BitVec.toNat_ofNat]
    rw [this, BitVec.getLsbD_setWidth, BitVec.getLsbD_allOnes]
    by_cases hj : j < 8 <;> simp [hj]
    omega
  simp only [putByte, BitVec.getLsbD_or, BitVec.getLsbD_and, BitVec.getLsbD_not,
    BitVec.getLsbD_shiftLeft, BitVec.getLsbD_setWidth, hFF, hi, decide_true, Bool.true_and]
  by_cases h1 : i < sh
  · simp [h1, show ¬ sh ≤ i by omega]
  · by_cases h2 : i < sh + 8
    · simp [h1, h2, show sh ≤ i by omega, show i - sh < 8 by omega, show i - sh < n by omega]
    · have : v.getLsbD (i - sh) = false := BitVec.getLsbD_of_ge _ _ (by omega)
      simp [h1, h2, show ¬ i - sh < 8 by omega, this]

/-- Read after write, the same byte of a word. -/
theorem getByte_putByte_same {n : Nat} (w : BitVec n) (sh : Nat) (v : Byte) (h : sh + 8 ≤ n) :
    getByte (putByte w sh v) sh = v := by
  apply BitVec.eq_of_getLsbD_eq
  intro i hi
  rw [getLsbD_getByte, getLsbD_putByte _ _ _ _ (by omega) (by omega)]
  simp [hi]

/-- Read after write, another byte of a word. -/
theorem getByte_putByte_other {n : Nat} (w : BitVec n) (sh sh' : Nat) (v : Byte)
    (h' : sh' + 8 ≤ n) (hne : sh' + 8 ≤ sh ∨ sh + 8 ≤ sh') :
    getByte (putByte w sh v) sh' = getByte w sh' := by
  apply BitVec.eq_of_getLsbD_eq
  intro i hi
  rw [getLsbD_getByte, getLsbD_getByte, getLsbD_putByte _ _ _ _ (by omega) (by omega)]
  rw [if_neg (by omega)]

/-- The window image of a word is its big-endian form (R57). -/
theorem getByte_eq_bigEndianBytes {n : Nat} (k : Nat) (w : BitVec (8 * k)) (i : Nat) (h : i < k)
    (hn : n = 8 * (k - 1 - i)) : getByte w n = (bigEndianBytes k w.toNat)[i] := by
  subst hn
  rw [getElem_bigEndianBytes]
  apply BitVec.eq_of_toNat_eq
  simp [getByte, BitVec.extractLsb'_toNat]

end Sys2Proof.Machine
end

