-- ==== Sys2Proof/Laws/Packing.lean ====
section
/-! SUPPORT. The packing tables as base-32 numerals: packing writes the digits of the big-endian
value, unpacking is its inverse (spec/40_encode.md R100, R101, spec/41_decode.md R123, R124). -/

namespace Sys2Proof.Machine

/-! ### Base-32 numerals -/

theorem base32Value_lt : ∀ {vs : List Nat}, (∀ v ∈ vs, v < 32) → base32Value vs < 32 ^ vs.length
  | [], _ => by simp [base32Value]
  | v :: vs, h => by
    have ih := base32Value_lt (vs := vs) fun x hx => h x (List.mem_cons_of_mem _ hx)
    have hv : v ≤ 31 := by have := h v (by simp); omega
    have : v * 32 ^ vs.length ≤ 31 * 32 ^ vs.length := Nat.mul_le_mul_right _ hv
    simp only [base32Value, List.length_cons, Nat.pow_succ]
    omega

theorem base32Value_append (us vs : List Nat) :
    base32Value (us ++ vs) = base32Value us * 32 ^ vs.length + base32Value vs := by
  induction us with
  | nil => simp [base32Value]
  | cons u us ih =>
    simp only [List.cons_append, base32Value, ih, List.length_append, Nat.pow_add]
    ring

/-- A numeral's digits are determined by its value and their number. -/
theorem base32Value_inj : ∀ {us vs : List Nat}, (∀ u ∈ us, u < 32) → (∀ v ∈ vs, v < 32) →
    us.length = vs.length → base32Value us = base32Value vs → us = vs
  | [], [], _, _, _, _ => rfl
  | u :: us, v :: vs, hu, hv, hl, h => by
    have hl' : us.length = vs.length := by simpa using hl
    have hu' : ∀ x ∈ us, x < 32 := fun x hx => hu x (List.mem_cons_of_mem _ hx)
    have hv' : ∀ x ∈ vs, x < 32 := fun x hx => hv x (List.mem_cons_of_mem _ hx)
    have h1 := base32Value_lt hu'
    have h2 := base32Value_lt hv'
    simp only [base32Value, hl'] at h h1
    set p := 32 ^ vs.length
    have hp : 0 < p := by positivity
    have huv : u = v := by
      have h3 := congrArg (· / p) h
      simpa [Nat.mul_comm _ p, Nat.mul_add_div hp, Nat.div_eq_of_lt h1, Nat.div_eq_of_lt h2] using h3
    rw [huv] at h
    rw [huv, base32Value_inj hu' hv' hl' (by omega)]

@[simp] theorem length_base32Digits (n V : Nat) : (base32Digits n V).length = n := by
  simp [base32Digits]

theorem base32Digits_lt (n V : Nat) : ∀ d ∈ base32Digits n V, d < 32 := by
  intro d hd
  simp only [base32Digits, List.mem_map] at hd
  obtain ⟨k, -, rfl⟩ := hd
  omega

theorem base32Digits_succ (n V : Nat) :
    base32Digits (n + 1) V = (V >>> (5 * n)) % 32 :: base32Digits n V := by
  apply List.ext_getElem
  · simp
  · intro i h1 h2
    cases i with
    | zero => simp [base32Digits]
    | succ i =>
      simp only [base32Digits, List.getElem_cons_succ, List.getElem_map, List.getElem_range]
      congr 3
      omega

theorem base32Value_base32Digits (n V : Nat) : base32Value (base32Digits n V) = V % 32 ^ n := by
  induction n with
  | zero => simp [base32Digits, base32Value, Nat.mod_one]
  | succ n ih =>
    rw [base32Digits_succ]
    simp only [base32Value, ih, length_base32Digits, Nat.shiftRight_eq_div_pow]
    rw [Nat.pow_succ 32 n, Nat.mod_mul, Nat.pow_mul]
    norm_num
    ring

/-- The digits of a numeral's value are the numeral. -/
theorem base32Digits_base32Value {vs : List Nat} (h : ∀ v ∈ vs, v < 32) :
    base32Digits vs.length (base32Value vs) = vs := by
  apply base32Value_inj (base32Digits_lt _ _) h (by simp)
  rw [base32Value_base32Digits]
  exact Nat.mod_eq_of_lt (base32Value_lt h)

/-- The values of a list of groups. -/
def groupValues {n : Nat} (v : Vector Group n) : List Nat := v.toList.map BitVec.toNat

theorem groupValues_lt {n : Nat} (v : Vector Group n) : ∀ x ∈ groupValues v, x < 32 := by
  intro x hx
  simp only [groupValues, List.mem_map] at hx
  obtain ⟨g, -, rfl⟩ := hx
  exact g.isLt

@[simp] theorem length_groupValues {n : Nat} (v : Vector Group n) :
    (groupValues v).length = n := by
  simp [groupValues]

/-! ### The tables on numbers -/

theorem toNat_bits (b : Byte) (lo n : Nat) : (bits b lo n).toNat = b.toNat / 2 ^ lo % 2 ^ n := by
  simp [bits, BitVec.extractLsb'_toNat, Nat.shiftRight_eq_div_pow]

theorem toNat_join {m n : Nat} (a : BitVec m) (b : BitVec n) (h : m + n = 5) :
    (join a b h).toNat = a.toNat * 2 ^ n + b.toNat := by
  rw [join, BitVec.toNat_cast, BitVec.toNat_append, ← Nat.shiftLeft_add_eq_or_of_lt b.isLt,
    Nat.shiftLeft_eq]

theorem getLsbD_join {m n : Nat} (a : BitVec m) (b : BitVec n) (h : m + n = 5) (i : Nat) :
    (join a b h).getLsbD i = if i < n then b.getLsbD i else a.getLsbD (i - n) := by
  rw [join, BitVec.getLsbD_cast, BitVec.getLsbD_append]

/-- The timestamp groups are those of R100's table. -/
theorem groupValues_packTimestamp (b : Vector Byte 6) :
    groupValues (packTimestamp b) = timestampGroups fun k => b.toList.getD k 0 := by
  simp only [groupValues, packTimestamp, timestampGroups, field, Vector.toList_mk, List.map_cons,
    List.map_nil, toNat_bits, toNat_join, BitVec.toNat_setWidth]
  simp
  omega

/-- Packing a timestamp writes the digits of its 48-bit value (R100). -/
theorem base32Value_packTimestamp (b : Vector Byte 6) :
    base32Value (groupValues (packTimestamp b)) = bigEndian b.toList := by
  obtain ⟨⟨l⟩, hl⟩ := b
  match l, hl with
  | [b0, b1, b2, b3, b4, b5], _ =>
    simp only [groupValues, packTimestamp, Vector.toList_mk, List.map_cons, List.map_nil,
      toNat_bits, toNat_join, BitVec.toNat_setWidth, base32Value, bigEndian, List.length_cons,
      List.length_nil, Vector.getElem_mk, List.getElem_toArray, List.getElem_cons_zero,
      List.getElem_cons_succ]
    have := b0.isLt; have := b1.isLt; have := b2.isLt
    have := b3.isLt; have := b4.isLt; have := b5.isLt
    omega

theorem base32Value_packHalf (b : Vector Byte 5) :
    base32Value (groupValues (packHalf b)) = bigEndian b.toList := by
  obtain ⟨⟨l⟩, hl⟩ := b
  match l, hl with
  | [b0, b1, b2, b3, b4], _ =>
    simp only [groupValues, packHalf, Vector.toList_mk, List.map_cons, List.map_nil,
      toNat_bits, toNat_join, base32Value, bigEndian, List.length_cons,
      List.length_nil, Vector.getElem_mk, List.getElem_toArray, List.getElem_cons_zero,
      List.getElem_cons_succ]
    have := b0.isLt; have := b1.isLt; have := b2.isLt
    have := b3.isLt; have := b4.isLt
    omega

theorem groupValues_append {m n : Nat} (u : Vector Group m) (v : Vector Group n) :
    groupValues (u ++ v) = groupValues u ++ groupValues v := by
  simp [groupValues]

/-- Packing a randomness writes the digits of its 80-bit value (R101). -/
theorem base32Value_packRandomness (b : Vector Byte 10) :
    base32Value (groupValues (packRandomness b)) = bigEndian b.toList := by
  have hb : b.toList = (lanes b 0 5).toList ++ (lanes b 5 5).toList := by
    rw [← Vector.toList_append]
    exact congrArg Vector.toList (lanes_append_lanes (n := 5) (k := 5) b (by decide) (by decide)).symm
  rw [hb, bigEndian_append, packRandomness, groupValues_append, base32Value_append,
    base32Value_packHalf, base32Value_packHalf]
  simp

/-! ### Unpacking is the inverse of packing -/

theorem unpackTimestamp_packTimestamp (b : Vector Byte 6) : unpackTimestamp (packTimestamp b) = b := by
  apply Vector.ext
  intro i hi
  apply BitVec.eq_of_getLsbD_eq
  intro j hj
  interval_cases i <;> interval_cases j <;>
    simp [unpackTimestamp, packTimestamp, getLsbD_join, -BitVec.getLsbD_eq_getElem]

theorem unpackHalf_packHalf (b : Vector Byte 5) : unpackHalf (packHalf b) = b := by
  apply Vector.ext
  intro i hi
  apply BitVec.eq_of_getLsbD_eq
  intro j hj
  interval_cases i <;> interval_cases j <;>
    simp [unpackHalf, packHalf, getLsbD_join, -BitVec.getLsbD_eq_getElem]

theorem packHalf_unpackHalf (w : Vector Group 8) : packHalf (unpackHalf w) = w := by
  apply Vector.ext
  intro i hi
  apply BitVec.eq_of_getLsbD_eq
  intro j hj
  interval_cases i <;> interval_cases j <;>
    simp [unpackHalf, packHalf, getLsbD_join, -BitVec.getLsbD_eq_getElem]

theorem getLsbD_of_toNat_lt {n : Nat} (x : BitVec n) (i : Nat) (h : x.toNat < 2 ^ i) :
    x.getLsbD i = false := by
  rw [BitVec.getLsbD]
  exact Nat.testBit_lt_two_pow h

/-- A timestamp's groups come back when the first is at most 7 (R121, R123). -/
theorem packTimestamp_unpackTimestamp (v : Vector Group 10) (h : v[0].toNat ≤ 7) :
    packTimestamp (unpackTimestamp v) = v := by
  have h3 : v[0].getLsbD 3 = false := getLsbD_of_toNat_lt _ _ (by omega)
  have h4 : v[0].getLsbD 4 = false := getLsbD_of_toNat_lt _ _ (by omega)
  apply Vector.ext
  intro i hi
  apply BitVec.eq_of_getLsbD_eq
  intro j hj
  interval_cases i <;> interval_cases j <;>
    simp [unpackTimestamp, packTimestamp, getLsbD_join, h3, h4, -BitVec.getLsbD_eq_getElem]

theorem lanes_packRandomness (b : Vector Byte 10) :
    lanes (packRandomness b) 0 8 = packHalf (lanes b 0 5) ∧
      lanes (packRandomness b) 8 8 = packHalf (lanes b 5 5) :=
  ⟨lanes_append_left (n := 8) (k := 8) _ _ _, lanes_append_right (n := 8) (k := 8) _ _ _⟩

theorem unpackRandomness_packRandomness (b : Vector Byte 10) :
    unpackRandomness (packRandomness b) = b := by
  rw [unpackRandomness, (lanes_packRandomness b).1, (lanes_packRandomness b).2, unpackHalf_packHalf,
    unpackHalf_packHalf]
  exact lanes_append_lanes (n := 5) (k := 5) b (by decide) (by decide)

theorem packRandomness_unpackRandomness (v : Vector Group 16) :
    packRandomness (unpackRandomness v) = v := by
  rw [packRandomness, unpackRandomness, lanes_append_left (n := 5) (k := 5),
    lanes_append_right (n := 5) (k := 5), packHalf_unpackHalf, packHalf_unpackHalf]
  exact lanes_append_lanes (n := 8) (k := 8) v (by decide) (by decide)

/-- The groups of an identifier, before the alphabet (R104). -/
def packIdentifier (b : Vector Byte 16) : Vector Group 26 :=
  packTimestamp (lanes b 0 6) ++ packRandomness (lanes b 6 10)

theorem encodeIdentifier_eq (b : Vector Byte 16) :
    encodeIdentifier b = mapLanes encodeChar (packIdentifier b) := by
  apply Vector.ext
  intro i hi
  simp only [encodeIdentifier, encodeTimestamp, encodeRandomness, packIdentifier,
    getElem_mapLanes]
  by_cases h : i < 10
  · rw [Vector.getElem_append_left h, Vector.getElem_append_left h, getElem_mapLanes]
  · rw [Vector.getElem_append_right (by omega) (by omega),
      Vector.getElem_append_right (by omega) (by omega), getElem_mapLanes]

theorem unpackIdentifier_packIdentifier (b : Vector Byte 16) :
    unpackIdentifier (packIdentifier b) = b := by
  rw [unpackIdentifier, packIdentifier, lanes_append_left (n := 10) (k := 16),
    lanes_append_right (n := 10) (k := 16), unpackTimestamp_packTimestamp,
    unpackRandomness_packRandomness]
  exact lanes_append_lanes (n := 6) (k := 10) b (by decide) (by decide)

theorem packIdentifier_unpackIdentifier (v : Vector Group 26) (h : v[0].toNat ≤ 7) :
    packIdentifier (unpackIdentifier v) = v := by
  rw [packIdentifier, unpackIdentifier, lanes_append_left (n := 6) (k := 10),
    lanes_append_right (n := 6) (k := 10),
    packTimestamp_unpackTimestamp _ (by rw [getElem_lanes]; exact h),
    packRandomness_unpackRandomness]
  exact lanes_append_lanes (n := 10) (k := 16) v (by decide) (by decide)

/-- Packing an identifier writes the 26 digits of its 128-bit value (R105). -/
theorem base32Value_packIdentifier (b : Vector Byte 16) :
    base32Value (groupValues (packIdentifier b)) = bigEndian b.toList := by
  have hb : b.toList = (lanes b 0 6).toList ++ (lanes b 6 10).toList := by
    rw [← Vector.toList_append]
    exact congrArg Vector.toList (lanes_append_lanes (n := 6) (k := 10) b (by decide) (by decide)).symm
  rw [hb, bigEndian_append, packIdentifier, groupValues_append, base32Value_append,
    base32Value_packTimestamp, base32Value_packRandomness]
  simp

/-- The first character of a timestamp carries 3 bits (R100). -/
theorem packTimestamp_first (b : Vector Byte 6) : (packTimestamp b)[0].toNat ≤ 7 := by
  simp only [packTimestamp, Vector.getElem_mk, List.getElem_toArray, List.getElem_cons_zero,
    BitVec.toNat_setWidth, toNat_bits]
  omega

theorem packIdentifier_first (b : Vector Byte 16) : (packIdentifier b)[0].toNat ≤ 7 := by
  rw [packIdentifier, Vector.getElem_append_left (by decide)]
  exact packTimestamp_first _

/-! ### What unpacking gives as a value -/

theorem bigEndian_unpackTimestamp (v : Vector Group 10) (h : v[0].toNat ≤ 7) :
    bigEndian (unpackTimestamp v).toList = base32Value (groupValues v) := by
  rw [← base32Value_packTimestamp, packTimestamp_unpackTimestamp v h]

theorem bigEndian_unpackRandomness (v : Vector Group 16) :
    bigEndian (unpackRandomness v).toList = base32Value (groupValues v) := by
  rw [← base32Value_packRandomness, packRandomness_unpackRandomness v]

theorem bigEndian_unpackIdentifier (v : Vector Group 26) (h : v[0].toNat ≤ 7) :
    bigEndian (unpackIdentifier v).toList = base32Value (groupValues v) := by
  rw [← base32Value_packIdentifier, packIdentifier_unpackIdentifier v h]

/-! ### The formulas of R123 and R124 on numbers -/

theorem and_255 (n : Nat) : n &&& 0xFF = n % 2 ^ 8 := Nat.and_two_pow_sub_one_eq_mod n 8

theorem or_mod_256 (a b : Nat) : (a ||| b) % 2 ^ 8 = a % 2 ^ 8 ||| b % 2 ^ 8 :=
  Nat.or_mod_two_pow

theorem toNat_mod_256 (g : Group) : g.toNat % 256 = g.toNat := by omega

theorem shiftRight_mod_256 (g : Group) (k : Nat) : (g.toNat >>> k) % 256 = g.toNat >>> k :=
  Nat.mod_eq_of_lt (Nat.lt_of_le_of_lt (Nat.shiftRight_le _ _) (by omega))

theorem values_unpackTimestamp (v : Vector Group 10) :
    (unpackTimestamp v).toList.map BitVec.toNat =
      timestampBytes fun k => (groupValues v).getD k 0 := by
  simp only [unpackTimestamp, timestampBytes, groupValues, Vector.toList_mk, List.map_cons,
    List.map_nil, wide, BitVec.toNat_or, BitVec.toNat_shiftLeft, BitVec.toNat_ushiftRight,
    BitVec.toNat_and, BitVec.toNat_setWidth, and_255, or_mod_256]
  simp [toNat_mod_256, shiftRight_mod_256]

theorem values_unpackHalf (v : Vector Group 8) :
    (unpackHalf v).toList.map BitVec.toNat = halfBytes fun k => (groupValues v).getD k 0 := by
  simp only [unpackHalf, halfBytes, groupValues, Vector.toList_mk, List.map_cons,
    List.map_nil, wide, BitVec.toNat_or, BitVec.toNat_shiftLeft, BitVec.toNat_ushiftRight,
    BitVec.toNat_and, BitVec.toNat_setWidth, and_255, or_mod_256]
  simp [toNat_mod_256, shiftRight_mod_256]

theorem values_unpackRandomness (v : Vector Group 16) :
    (unpackRandomness v).toList.map BitVec.toNat =
      randomnessBytes fun k => (groupValues v).getD k 0 := by
  rw [unpackRandomness, Vector.toList_append, List.map_append, values_unpackHalf, values_unpackHalf,
    randomnessBytes]
  congr 1 <;> simp [halfBytes, groupValues]

end Sys2Proof.Machine
end

