-- ==== Sys2Proof/Laws/Rom.lean ====
section
/-! SUPPORT. The two ROMs: `DECODE` inverts `ENCODE` (spec/10_state.md R31, R32). -/

namespace Sys2Proof.Machine

theorem encodeChar_eq_charOf : ∀ g : Group, encodeChar g = charOf g.toNat := by decide

theorem encodeChar_strictMono : ∀ g h : Group, g.toNat < h.toNat →
    (encodeChar g).toNat < (encodeChar h).toNat := by decide

theorem encodeChar_lt_iff (g h : Group) :
    (encodeChar g).toNat < (encodeChar h).toNat ↔ g.toNat < h.toNat := by
  refine ⟨fun hlt => ?_, encodeChar_strictMono g h⟩
  rcases Nat.lt_trichotomy g.toNat h.toNat with h1 | h1 | h1
  · exact h1
  · rw [BitVec.eq_of_toNat_eq h1] at hlt
    exact absurd hlt (Nat.lt_irrefl _)
  · exact absurd hlt (Nat.lt_asymm (encodeChar_strictMono h g h1))

@[simp] theorem lookup_encodeChar : ∀ g : Group, lookup (encodeChar g) = some g := by decide

/-- `DECODE` accepts exactly the codes `ENCODE` holds (R32). -/
theorem lookup_eq_some_iff : ∀ (c : Byte) (g : Group), lookup c = some g ↔ encodeChar g = c := by
  have h : ∀ c : Byte, ∀ g ∈ lookup c, encodeChar g = c := by decide
  intro c g
  exact ⟨fun hc => h c g (by simp [hc]), fun hc => by rw [← hc, lookup_encodeChar]⟩

theorem lookup_eq_none_iff (c : Byte) : lookup c = none ↔ ∀ g, encodeChar g ≠ c := by
  constructor
  · intro h g hg
    rw [(lookup_eq_some_iff c g).2 hg] at h
    cases h
  · intro h
    cases hc : lookup c with
    | none => rfl
    | some g => exact absurd ((lookup_eq_some_iff c g).1 hc) (h g)

theorem charOf_toNat (g : Group) : charOf g.toNat = encodeChar g := (encodeChar_eq_charOf g).symm

theorem lookup_charOf (n : Nat) (h : n < 32) : lookup (charOf n) = some (BitVec.ofNat 5 n) := by
  rw [show charOf n = encodeChar (BitVec.ofNat 5 n) by
    rw [encodeChar_eq_charOf, BitVec.toNat_ofNat, Nat.mod_eq_of_lt h], lookup_encodeChar]

theorem mem_encodeRom_iff : ∀ c : Byte, c ∈ encodeRom.toList ↔ (lookup c).isSome = true := by decide

theorem lookup_none_of_not_mem (c : Byte) (h : c ∉ encodeRom.toList) : lookup c = none := by
  have := (mem_encodeRom_iff c).not.1 h
  simpa using this

end Sys2Proof.Machine
end

