-- ==== Sys2Proof/Laws/State.lean ====
section
/-! SUPPORT. One lemma per field and update of the state. -/

namespace Sys2Proof.Machine

section complete
variable (s : State) (st ei : Byte) (lns : List Byte) (w : Word128) (r : Byte)

@[simp] theorem State.complete_cmd : (s.complete st ei lns w r).cmd = s.cmd := rfl
@[simp] theorem State.complete_inLen : (s.complete st ei lns w r).inLen = s.inLen := rfl
@[simp] theorem State.complete_status : (s.complete st ei lns w r).status = st := rfl
@[simp] theorem State.complete_errInfo : (s.complete st ei lns w r).errInfo = ei := rfl
@[simp] theorem State.complete_outLen : (s.complete st ei lns w r).outLen = BitVec.ofNat 8 lns.length := rfl
@[simp] theorem State.complete_cmpOut : (s.complete st ei lns w r).cmpOut = r := rfl
@[simp] theorem State.complete_tsIn : (s.complete st ei lns w r).tsIn = s.tsIn := rfl
@[simp] theorem State.complete_intIn : (s.complete st ei lns w r).intIn = s.intIn := rfl
@[simp] theorem State.complete_inp : (s.complete st ei lns w r).inp = s.inp := rfl
@[simp] theorem State.complete_ident : (s.complete st ei lns w r).ident = s.ident := rfl
@[simp] theorem State.complete_wordOut : (s.complete st ei lns w r).wordOut = w := rfl
@[simp] theorem State.complete_out : (s.complete st ei lns w r).out = Vector.ofFn fun i => lns.getD i.val 0x00 := rfl
@[simp] theorem State.complete_host : (s.complete st ei lns w r).host = s.host := rfl
@[simp] theorem State.complete_vars : (s.complete st ei lns w r).vars = s.vars := rfl
@[simp] theorem State.complete_wait : (s.complete st ei lns w r).wait = s.wait := rfl
@[simp] theorem State.complete_draws : (s.complete st ei lns w r).draws = s.draws := rfl

end complete

section start
variable (s : State)

@[simp] theorem State.start_cmd : (s.start).cmd = s.cmd := rfl
@[simp] theorem State.start_inLen : (s.start).inLen = s.inLen := rfl
@[simp] theorem State.start_status : (s.start).status = statusBusy := rfl
@[simp] theorem State.start_errInfo : (s.start).errInfo = s.errInfo := rfl
@[simp] theorem State.start_outLen : (s.start).outLen = s.outLen := rfl
@[simp] theorem State.start_cmpOut : (s.start).cmpOut = s.cmpOut := rfl
@[simp] theorem State.start_tsIn : (s.start).tsIn = s.tsIn := rfl
@[simp] theorem State.start_intIn : (s.start).intIn = s.intIn := rfl
@[simp] theorem State.start_inp : (s.start).inp = s.inp := rfl
@[simp] theorem State.start_ident : (s.start).ident = s.ident := rfl
@[simp] theorem State.start_wordOut : (s.start).wordOut = s.wordOut := rfl
@[simp] theorem State.start_out : (s.start).out = s.out := rfl
@[simp] theorem State.start_host : (s.start).host = s.host := rfl
@[simp] theorem State.start_vars : (s.start).vars = s.vars := rfl
@[simp] theorem State.start_wait : (s.start).wait = Config.latency s.draws := rfl
@[simp] theorem State.start_draws : (s.start).draws = s.draws + 1 := rfl

end start

section assertReset
variable (s : State)

@[simp] theorem State.assertReset_cmd : (s.assertReset).cmd = State.reset.cmd := rfl
@[simp] theorem State.assertReset_inLen : (s.assertReset).inLen = State.reset.inLen := rfl
@[simp] theorem State.assertReset_status : (s.assertReset).status = State.reset.status := rfl
@[simp] theorem State.assertReset_errInfo : (s.assertReset).errInfo = State.reset.errInfo := rfl
@[simp] theorem State.assertReset_outLen : (s.assertReset).outLen = State.reset.outLen := rfl
@[simp] theorem State.assertReset_cmpOut : (s.assertReset).cmpOut = State.reset.cmpOut := rfl
@[simp] theorem State.assertReset_tsIn : (s.assertReset).tsIn = State.reset.tsIn := rfl
@[simp] theorem State.assertReset_intIn : (s.assertReset).intIn = State.reset.intIn := rfl
@[simp] theorem State.assertReset_inp : (s.assertReset).inp = State.reset.inp := rfl
@[simp] theorem State.assertReset_ident : (s.assertReset).ident = State.reset.ident := rfl
@[simp] theorem State.assertReset_wordOut : (s.assertReset).wordOut = State.reset.wordOut := rfl
@[simp] theorem State.assertReset_out : (s.assertReset).out = State.reset.out := rfl
@[simp] theorem State.assertReset_host : (s.assertReset).host = s.host := rfl
@[simp] theorem State.assertReset_vars : (s.assertReset).vars = s.vars := rfl
@[simp] theorem State.assertReset_wait : (s.assertReset).wait = State.reset.wait := rfl
@[simp] theorem State.assertReset_draws : (s.assertReset).draws = s.draws := rfl

end assertReset

section tick
variable (s : State)

@[simp] theorem State.tick_cmd : (s.tick).cmd = s.cmd := rfl
@[simp] theorem State.tick_inLen : (s.tick).inLen = s.inLen := rfl
@[simp] theorem State.tick_status : (s.tick).status = s.status := rfl
@[simp] theorem State.tick_errInfo : (s.tick).errInfo = s.errInfo := rfl
@[simp] theorem State.tick_outLen : (s.tick).outLen = s.outLen := rfl
@[simp] theorem State.tick_cmpOut : (s.tick).cmpOut = s.cmpOut := rfl
@[simp] theorem State.tick_tsIn : (s.tick).tsIn = s.tsIn := rfl
@[simp] theorem State.tick_intIn : (s.tick).intIn = s.intIn := rfl
@[simp] theorem State.tick_inp : (s.tick).inp = s.inp := rfl
@[simp] theorem State.tick_ident : (s.tick).ident = s.ident := rfl
@[simp] theorem State.tick_wordOut : (s.tick).wordOut = s.wordOut := rfl
@[simp] theorem State.tick_out : (s.tick).out = s.out := rfl
@[simp] theorem State.tick_host : (s.tick).host = s.host := rfl
@[simp] theorem State.tick_vars : (s.tick).vars = s.vars := rfl
@[simp] theorem State.tick_wait : (s.tick).wait = s.wait - 1 := rfl
@[simp] theorem State.tick_draws : (s.tick).draws = s.draws := rfl

end tick

section assign
variable (s : State) (x : HostVar) (v : Byte)

@[simp] theorem State.assign_cmd : (s.assign x v).cmd = s.cmd := rfl
@[simp] theorem State.assign_inLen : (s.assign x v).inLen = s.inLen := rfl
@[simp] theorem State.assign_status : (s.assign x v).status = s.status := rfl
@[simp] theorem State.assign_errInfo : (s.assign x v).errInfo = s.errInfo := rfl
@[simp] theorem State.assign_outLen : (s.assign x v).outLen = s.outLen := rfl
@[simp] theorem State.assign_cmpOut : (s.assign x v).cmpOut = s.cmpOut := rfl
@[simp] theorem State.assign_tsIn : (s.assign x v).tsIn = s.tsIn := rfl
@[simp] theorem State.assign_intIn : (s.assign x v).intIn = s.intIn := rfl
@[simp] theorem State.assign_inp : (s.assign x v).inp = s.inp := rfl
@[simp] theorem State.assign_ident : (s.assign x v).ident = s.ident := rfl
@[simp] theorem State.assign_wordOut : (s.assign x v).wordOut = s.wordOut := rfl
@[simp] theorem State.assign_out : (s.assign x v).out = s.out := rfl
@[simp] theorem State.assign_host : (s.assign x v).host = s.host := rfl
@[simp] theorem State.assign_vars : (s.assign x v).vars = (x, v) :: s.vars.filter fun p => p.1 ≠ x := rfl
@[simp] theorem State.assign_wait : (s.assign x v).wait = s.wait := rfl
@[simp] theorem State.assign_draws : (s.assign x v).draws = s.draws := rfl

end assign

section placeCommand
variable (s : State) (nbits w : Nat)

@[simp] theorem State.placeCommand_cmd : (s.placeCommand nbits w).cmd = BitVec.ofNat 8 (w % 2 ^ nbits) := rfl
@[simp] theorem State.placeCommand_inLen : (s.placeCommand nbits w).inLen = s.inLen := rfl
@[simp] theorem State.placeCommand_status : (s.placeCommand nbits w).status = statusBusy := rfl
@[simp] theorem State.placeCommand_errInfo : (s.placeCommand nbits w).errInfo = s.errInfo := rfl
@[simp] theorem State.placeCommand_outLen : (s.placeCommand nbits w).outLen = s.outLen := rfl
@[simp] theorem State.placeCommand_cmpOut : (s.placeCommand nbits w).cmpOut = s.cmpOut := rfl
@[simp] theorem State.placeCommand_tsIn : (s.placeCommand nbits w).tsIn = s.tsIn := rfl
@[simp] theorem State.placeCommand_intIn : (s.placeCommand nbits w).intIn = s.intIn := rfl
@[simp] theorem State.placeCommand_inp : (s.placeCommand nbits w).inp = s.inp := rfl
@[simp] theorem State.placeCommand_ident : (s.placeCommand nbits w).ident = s.ident := rfl
@[simp] theorem State.placeCommand_wordOut : (s.placeCommand nbits w).wordOut = s.wordOut := rfl
@[simp] theorem State.placeCommand_out : (s.placeCommand nbits w).out = s.out := rfl
@[simp] theorem State.placeCommand_host : (s.placeCommand nbits w).host = s.host := rfl
@[simp] theorem State.placeCommand_vars : (s.placeCommand nbits w).vars = s.vars := rfl
@[simp] theorem State.placeCommand_wait : (s.placeCommand nbits w).wait = 0 := rfl
@[simp] theorem State.placeCommand_draws : (s.placeCommand nbits w).draws = s.draws := rfl

end placeCommand

section writeLoc
variable (s : State) (l : Loc) (v : Byte)

@[simp] theorem State.writeLoc_status : (s.writeLoc l v).status = s.status := by cases l <;> rfl
@[simp] theorem State.writeLoc_errInfo : (s.writeLoc l v).errInfo = s.errInfo := by cases l <;> rfl
@[simp] theorem State.writeLoc_outLen : (s.writeLoc l v).outLen = s.outLen := by cases l <;> rfl
@[simp] theorem State.writeLoc_cmpOut : (s.writeLoc l v).cmpOut = s.cmpOut := by cases l <;> rfl
@[simp] theorem State.writeLoc_wordOut : (s.writeLoc l v).wordOut = s.wordOut := by cases l <;> rfl
@[simp] theorem State.writeLoc_out : (s.writeLoc l v).out = s.out := by cases l <;> rfl
@[simp] theorem State.writeLoc_host : (s.writeLoc l v).host = s.host := by cases l <;> rfl
@[simp] theorem State.writeLoc_vars : (s.writeLoc l v).vars = s.vars := by cases l <;> rfl
@[simp] theorem State.writeLoc_wait : (s.writeLoc l v).wait = s.wait := by cases l <;> rfl
@[simp] theorem State.writeLoc_draws : (s.writeLoc l v).draws = s.draws := by cases l <;> rfl

end writeLoc

@[simp] theorem State.reset_busy : State.reset.busy = false := by
  simp [State.busy, State.reset]

@[simp] theorem State.start_busy (s : State) : s.start.busy = true := by
  simp [State.busy, statusBusy]

@[simp] theorem State.assertReset_busy (s : State) : s.assertReset.busy = false := by
  simp [State.busy, State.reset]

@[simp] theorem State.tick_busy (s : State) : s.tick.busy = s.busy := rfl

@[simp] theorem State.assign_busy (s : State) (x : HostVar) (v : Byte) :
    (s.assign x v).busy = s.busy := rfl

@[simp] theorem State.writeLoc_busy (s : State) (l : Loc) (v : Byte) :
    (s.writeLoc l v).busy = s.busy := by simp [State.busy]

/-- An error completion is a completion: `BUSY` is clear whatever the error. -/
@[simp] theorem ErrKind.statusByte_busy (e : ErrKind) : e.statusByte.getLsbD 1 = false := by
  cases e <;> simp [ErrKind.statusByte, ErrKind.code]

theorem ErrKind.statusByte_err (e : ErrKind) : e.statusByte.extractLsb' 2 3 = e.code := by
  cases e <;> simp only [ErrKind.statusByte, ErrKind.code] <;> decide

/-! ### Host variables -/

theorem var_assign_same (s : State) (x : HostVar) (v : Byte) : (s.assign x v).var x = some v := by
  simp [State.var]

theorem var_assign_other (s : State) {x y : HostVar} (v : Byte) (h : y ≠ x) :
    (s.assign x v).var y = s.var y := by
  simp only [State.var, State.assign_vars]
  rw [List.find?_cons_of_neg (by simpa using fun e => h e.symm)]
  congr 1
  rw [List.find?_filter]
  congr 1
  funext p
  by_cases hp : p.1 = y
  · simp [hp, h]
  · simp [hp]

end Sys2Proof.Machine
end

