-- ==== Sys2Proof/Laws/Exec.lean ====
section
/-! SUPPORT. What a command can do, said once: it completes, with or without an error, and writes
nothing but the outputs (spec/60_exceptions.md R205, R210, R260). -/

namespace Sys2Proof.Machine

/-- An error a command can raise: `POS` is a lane of `IN`, an overflow is at lane 0 (R204). -/
def ErrKind.Legal : ErrKind → Prop
  | .alphabet pos ovf => pos ≤ 25 ∧ (ovf = true → pos = 0)
  | _ => True

/-- The outputs a command can name (R72): lanes, or a word, or a relation. -/
def LegalOutputs (lns : List Byte) (word : Word128) (rel : Byte) : Prop :=
  (lns.length ∈ [6, 10, 16, 26] ∧ word = 0 ∧ rel = 0) ∨
  (lns = [] ∧ rel = 0) ∨
  (lns = [] ∧ word = 0 ∧ rel.toNat ≤ 3)

theorem complete_sameInputs (s : State) (st ei : Byte) (lns : List Byte) (w : Word128) (r : Byte) :
    SameInputs s (s.complete st ei lns w r) := ⟨rfl, rfl, rfl, rfl, rfl, rfl⟩

theorem complete_sameHost (s : State) (st ei : Byte) (lns : List Byte) (w : Word128) (r : Byte) :
    SameHost s (s.complete st ei lns w r) := ⟨rfl, rfl, rfl, rfl⟩

@[simp] theorem getElem_complete_out (s : State) (st ei : Byte) (lns : List Byte) (w : Word128)
    (r : Byte) (i : Nat) (h : i < 26) : (s.complete st ei lns w r).out[i] = lns.getD i 0x00 := by
  simp [State.complete]

theorem finish_succeeds (s : State) (lns : List Byte) (w : Word128) (r : Byte)
    (h : lns.length ≤ 26) : ∃ t, finish s lns w r = .next t ∧ Succeeds s t lns w r := by
  refine ⟨_, rfl, complete_sameInputs _ _ _ _ _ _, complete_sameHost _ _ _ _ _ _, rfl, rfl, ?_, ?_,
    rfl, rfl⟩
  · simp only [State.complete_outLen, BitVec.toNat_ofNat]
    omega
  · intro i
    exact getElem_complete_out _ _ _ _ _ _ _ _

theorem raise_fails (s : State) (e : ErrKind) :
    ∃ t, raise s e = .next t ∧ Fails s t (e.code.setWidth 8) e.infoByte := by
  refine ⟨_, rfl, complete_sameInputs _ _ _ _ _ _, complete_sameHost _ _ _ _ _ _, rfl, rfl, rfl, ?_,
    rfl, rfl⟩
  intro i
  exact getElem_complete_out _ _ _ _ _ _ _ _

/-- A raised error, with its code and report named. -/
theorem fails_of_raise (s : State) (e : ErrKind) (c ei : Byte) (hc : e.code.setWidth 8 = c)
    (hi : e.infoByte = ei) : ∃ t, raise s e = .next t ∧ Fails s t c ei := by
  subst hc hi
  exact raise_fails s e

theorem raise_status {s t : State} {e : ErrKind} (h : raise s e = .next t) : t.status ≠ 0x01 := by
  cases h
  cases e <;> simp [ErrKind.statusByte, ErrKind.code]

/-- The lanes a completion leaves. -/
theorem finish_out {s t : State} {n : Nat} {l : Vector Byte n} {w : Word128} {r : Byte}
    (h : finish s l.toList w r = .next t) (hn : n ≤ 26) : t.out.toList.take n = l.toList := by
  cases h
  apply List.ext_getElem
  · simp; omega
  · intro i h1 h2
    simp only [Vector.length_toList] at h2
    simp [h2]

/-- A state is its inputs, its outputs and the model's own fields. -/
theorem state_ext {s t : State} (a : SameInputs s t) (b : SameOutputs s t) (c : SameHost s t) :
    t = s := by
  obtain ⟨a1, a2, a3, a4, a5, a6⟩ := a
  obtain ⟨b1, b2, b3, b4, b5, b6⟩ := b
  obtain ⟨c1, c2, c3, c4⟩ := c
  cases s
  cases t
  simp only at *
  simp only [*]

/-- What the scan of R122 can answer: the error names a lane it scanned. -/
theorem scanError_legal : ∀ {ts : Bool} {i : Nat} {cs : List Byte} {e : ErrKind},
    scanError ts i cs = some e →
      ∃ pos ovf, e = .alphabet pos ovf ∧ pos < i + cs.length ∧ (ovf = true → pos = 0)
  | _, _, [], _, h => by simp [scanError] at h
  | ts, i, c :: cs, e, h => by
    simp only [scanError] at h
    split at h
    · cases h
      exact ⟨i, false, rfl, by simp, by simp⟩
    · split at h
      · cases h
        exact ⟨0, true, rfl, by simp, by simp⟩
      · obtain ⟨pos, ovf, h1, h2, h3⟩ := scanError_legal h
        exact ⟨pos, ovf, h1, by simp only [List.length_cons]; omega, h3⟩

theorem validate_error_legal {n : Nat} (hn : n ≤ 26) {ts : Bool} {codes : Vector Byte n}
    {e : ErrKind} (h : validate ts codes = .error e) : e.Legal := by
  unfold validate at h
  split at h
  · rename_i e' he
    cases h
    obtain ⟨pos, ovf, rfl, h2, h3⟩ := scanError_legal he
    refine ⟨?_, h3⟩
    simp at h2
    omega
  · cases h

/-- A decode command either raises a legal alphabet error or finishes with its bytes. -/
theorem decodeLanes_cases {n m : Nat} (s : State) (ts : Bool) (codes : Vector Byte n)
    (unpack : Vector Group n → Vector Byte m) (hn : n ≤ 26) (hm : m ∈ [6, 10, 16, 26]) :
    (∃ lns word rel, decodeLanes s ts codes unpack = finish s lns word rel ∧
      LegalOutputs lns word rel) ∨
      (∃ e, decodeLanes s ts codes unpack = raise s e ∧ e.Legal) := by
  unfold decodeLanes
  split
  · rename_i e he
    exact .inr ⟨_, rfl, validate_error_legal hn he⟩
  · exact .inl ⟨_, _, _, rfl, .inl ⟨by simpa using hm, rfl, rfl⟩⟩

theorem decodeLanes_of_ok {n m : Nat} (s : State) {ts : Bool} {codes : Vector Byte n}
    {v : Vector Group n} (unpack : Vector Group n → Vector Byte m)
    (h : validate ts codes = .ok v) :
    decodeLanes s ts codes unpack = finish s (unpack v).toList 0 0x00 := by
  simp [decodeLanes, h]

theorem decodeLanes_of_error {n m : Nat} (s : State) {ts : Bool} {codes : Vector Byte n}
    {e : ErrKind} (unpack : Vector Group n → Vector Byte m)
    (h : validate ts codes = .error e) : decodeLanes s ts codes unpack = raise s e := by
  simp [decodeLanes, h]

/-- A command finishes with the outputs R72 allows it, or raises an error R204 allows. -/
theorem exec_cases (i : Instr) (s : State) :
    (∃ lns word rel, exec i s = finish s lns word rel ∧ LegalOutputs lns word rel) ∨
      (∃ e, exec i s = raise s e ∧ e.Legal) := by
  have lanesOK : ∀ {n : Nat} (v : Vector Byte n), n ∈ [6, 10, 16, 26] →
      LegalOutputs v.toList 0 0 := fun v hv => .inl ⟨by simpa using hv, rfl, rfl⟩
  cases i with
  | encTs =>
    simp only [exec, execEncTs]
    split
    · exact .inr ⟨_, rfl, trivial⟩
    · exact .inl ⟨_, _, _, rfl, lanesOK _ (by decide)⟩
  | encRand =>
    simp only [exec, execEncRand]
    split
    · exact .inr ⟨_, rfl, trivial⟩
    · exact .inl ⟨_, _, _, rfl, lanesOK _ (by decide)⟩
  | enc =>
    simp only [exec, execEnc]
    split
    · exact .inr ⟨_, rfl, trivial⟩
    · exact .inl ⟨_, _, _, rfl, lanesOK _ (by decide)⟩
  | decTs =>
    simp only [exec, execDecTs]
    split
    · exact .inr ⟨_, rfl, trivial⟩
    · exact decodeLanes_cases s _ _ _ (by decide) (by decide)
  | decRand =>
    simp only [exec, execDecRand]
    split
    · exact .inr ⟨_, rfl, trivial⟩
    · exact decodeLanes_cases s _ _ _ (by decide) (by decide)
  | dec =>
    simp only [exec, execDec]
    split
    · exact .inr ⟨_, rfl, trivial⟩
    · exact decodeLanes_cases s _ _ _ (by decide) (by decide)
  | tsPack =>
    simp only [exec, execTsPack]
    split
    · exact .inr ⟨_, rfl, trivial⟩
    · split
      · exact .inr ⟨_, rfl, trivial⟩
      · exact .inl ⟨_, _, _, rfl, .inl ⟨by simp, rfl, rfl⟩⟩
  | tsUnpack =>
    simp only [exec, execTsUnpack]
    split
    · exact .inr ⟨_, rfl, trivial⟩
    · exact .inl ⟨_, _, _, rfl, .inr (.inl ⟨rfl, rfl⟩)⟩
  | intToBytes => exact .inl ⟨_, _, _, rfl, lanesOK _ (by decide)⟩
  | bytesToInt =>
    simp only [exec, execBytesToInt]
    split
    · exact .inr ⟨_, rfl, trivial⟩
    · exact .inl ⟨_, _, _, rfl, .inr (.inl ⟨rfl, rfl⟩)⟩
  | cmp =>
    simp only [exec, execCmp]
    split
    · exact .inr ⟨_, rfl, trivial⟩
    · refine .inl ⟨_, _, _, rfl, .inr (.inr ⟨rfl, rfl, ?_⟩)⟩
      cases lexCompare s.ident.toList s.inOperand <;> decide

/-- A command completes: it answers a next state that differs from the old one by one completion. -/
theorem exec_next (i : Instr) (s : State) :
    ∃ st ei lns word rel, exec i s = .next (s.complete st ei lns word rel) := by
  rcases exec_cases i s with ⟨lns, w, r, h, -⟩ | ⟨e, h, -⟩
  · exact ⟨_, _, _, _, _, h⟩
  · exact ⟨_, _, _, _, _, h⟩

/-! ### The scan of R122 -/

theorem scanError_eq_none_iff : ∀ (ts : Bool) (i : Nat) (cs : List Byte),
    scanError ts i cs = none ↔
      (∀ c ∈ cs, (lookup c).isSome = true) ∧
        (ts = true → i = 0 → ∀ c ∈ cs.head?, ∀ v ∈ lookup c, v.toNat ≤ 7)
  | _, _, [] => by simp [scanError]
  | ts, i, c :: cs => by
    have ih := scanError_eq_none_iff ts (i + 1) cs
    simp only [scanError]
    cases hc : lookup c with
    | none => simp [hc]
    | some v =>
      cases ts with
      | false => simp [hc, ih]
      | true =>
        by_cases hi : i = 0
        · subst hi
          by_cases hv : 7 < v.toNat
          · simp [hc, overflows, hv]
          · simp [hc, overflows, hv, ih, show v.toNat ≤ 7 by omega]
        · simp [hc, hi, ih]

/-- The scan reports the lowest lane outside the alphabet (R122). -/
theorem scanError_of_bad_lane {ts : Bool} : ∀ {i : Nat} {pre : List Byte} {c : Byte}
    {post : List Byte}, (∀ x ∈ pre, (lookup x).isSome = true) → lookup c = none →
      (ts = true → i = 0 → ∀ x ∈ pre.head?, ∀ v ∈ lookup x, v.toNat ≤ 7) →
      scanError ts i (pre ++ c :: post) = some (.alphabet (i + pre.length) false)
  | i, [], c, post, _, hc, _ => by simp [scanError, hc]
  | i, x :: pre, c, post, hp, hc, h0 => by
    obtain ⟨v, hv⟩ := Option.isSome_iff_exists.1 (hp x (by simp))
    have hskip : (ts && i == 0 && overflows v) = false := by
      cases ts with
      | false => simp
      | true =>
        by_cases hi : i = 0
        · have := h0 rfl hi x (by simp) v (by simp [hv])
          simp [overflows, this]
        · simp [hi]
    have ih := scanError_of_bad_lane (ts := ts) (i := i + 1) (pre := pre) (c := c) (post := post)
      (fun y hy => hp y (List.mem_cons_of_mem _ hy)) hc (by omega)
    simp only [List.cons_append, scanError, hv, hskip, ih, List.length_cons]
    simp only [Bool.false_eq_true, if_false]
    congr 2
    omega

/-- An overflowing first character of a timestamp is reported before any later lane (R121, R122). -/
theorem scanError_overflow {c : Byte} {cs : List Byte} {v : Group} (hc : lookup c = some v)
    (hv : 7 < v.toNat) : scanError true 0 (c :: cs) = some (.alphabet 0 true) := by
  simp [scanError, hc, overflows, hv]

/-- Characters the encoder writes are accepted, and their groups come back. -/
theorem validate_mapLanes_encodeChar {n : Nat} (ts : Bool) (v : Vector Group n)
    (h : ts = true → ∀ hn : 0 < n, v[0].toNat ≤ 7) :
    validate ts (mapLanes encodeChar v) = .ok v := by
  have hs : scanError ts 0 (mapLanes encodeChar v).toList = none := by
    rw [scanError_eq_none_iff, toList_mapLanes]
    refine ⟨?_, ?_⟩
    · intro c hc
      obtain ⟨g, -, rfl⟩ := List.mem_map.1 hc
      simp
    · intro hts _ c hc g hg
      cases n with
      | zero =>
        rw [show v.toList = [] from Vector.toList_eq_nil_iff.2 rfl] at hc
        simp at hc
      | succ n =>
        have hv := h hts (Nat.succ_pos n)
        have hlen : 0 < v.toList.length := by simp
        rw [List.head?_map, List.head?_eq_getElem?, List.getElem?_eq_getElem hlen] at hc
        simp only [Vector.getElem_toList, Option.map_some, Option.mem_def, Option.some.injEq] at hc
        subst hc
        simp only [lookup_encodeChar, Option.mem_def, Option.some.injEq] at hg
        subst hg
        exact hv
  have hg : groupsOf (mapLanes encodeChar v) = v := by
    apply Vector.ext
    intro i hi
    simp [groupsOf]
  simp [validate, hs, hg]

/-- The codes a scan accepts are the characters of their groups. -/
theorem validate_ok {n : Nat} {ts : Bool} {codes : Vector Byte n} {v : Vector Group n}
    (h : validate ts codes = .ok v) :
    codes = mapLanes encodeChar v ∧ (ts = true → ∀ hn : 0 < n, v[0].toNat ≤ 7) := by
  unfold validate at h
  split at h
  · cases h
  · rename_i hs
    obtain ⟨h1, h2⟩ := (scanError_eq_none_iff _ _ _).1 hs
    cases h
    refine ⟨?_, ?_⟩
    · apply Vector.ext
      intro i hi
      obtain ⟨g, hg⟩ := Option.isSome_iff_exists.1 (h1 codes[i] (by simp))
      simp only [groupsOf, getElem_mapLanes, hg, Option.getD_some]
      exact ((lookup_eq_some_iff _ _).1 hg).symm
    · intro hts hn
      have hlen : 0 < codes.toList.length := by simpa using hn
      obtain ⟨g, hg⟩ := Option.isSome_iff_exists.1 (h1 codes[0] (by simp))
      have := h2 hts rfl codes[0] (by
        rw [List.head?_eq_getElem?, List.getElem?_eq_getElem hlen]; simp) g hg
      simpa [groupsOf, hg] using this

end Sys2Proof.Machine
end

