-- ==== Sys2Proof/Laws/Window.lean ====
section
/-! SUPPORT. The register window (spec/20_memory.md R50 to R53): where each place lies, and that a
read after a write gives what was written there and leaves every other place alone. -/

namespace Sys2Proof.Machine

/-- The offset of a place; the reserved places have none of their own, 0x07 stands for them. -/
def Loc.offset : Loc → Offset
  | .cmd => 0x00
  | .inLen => 0x01
  | .ctrl => 0x02
  | .status => 0x03
  | .errInfo => 0x04
  | .outLen => 0x05
  | .cmpOut => 0x06
  | .tsIn k => offTsIn k
  | .intIn k => offIntIn k
  | .inp i => offIn i
  | .ident i => offId i
  | .wordOut k => offWordOut k
  | .out i => offOut i
  | .reserved => 0x07

/-- The map is one to one outside the reserved offsets. -/
theorem offset_locate : ∀ off : Offset, locate off ≠ .reserved → (locate off).offset = off := by
  decide

theorem locate_inj {o p : Offset} (h : locate o = locate p) (hr : locate o ≠ .reserved) : o = p := by
  rw [← offset_locate o hr, h, offset_locate p (h ▸ hr)]

@[simp] theorem locate_cmd : locate offCmd = .cmd := by decide
@[simp] theorem locate_inLen : locate offInLen = .inLen := by decide
@[simp] theorem locate_ctrl : locate offCtrl = .ctrl := by decide
@[simp] theorem locate_status : locate offStatus = .status := by decide

theorem locate_tsIn : ∀ k : Fin 8, locate (offTsIn k) = .tsIn k := by decide
theorem locate_intIn : ∀ k : Fin 16, locate (offIntIn k) = .intIn k := by decide
theorem locate_in : ∀ i : Fin 26, locate (offIn i) = .inp i := by decide
theorem locate_id : ∀ i : Fin 16, locate (offId i) = .ident i := by decide
theorem locate_wordOut : ∀ k : Fin 16, locate (offWordOut k) = .wordOut k := by decide
theorem locate_out : ∀ i : Fin 26, locate (offOut i) = .out i := by decide

/-! ### The columns of the map as ranges of offsets -/

theorem access_rw_iff : ∀ o : Offset, (locate o).access = .rw ↔ rwOffset o := by
  simp only [rwOffset]
  decide

theorem access_wo_iff : ∀ o : Offset, (locate o).access = .wo ↔ o = 0x02 := by decide

theorem access_ro_iff : ∀ o : Offset, (locate o).access = .ro ↔ roOffset o := by
  simp only [roOffset, outputOffset]
  decide

theorem access_reserved_iff : ∀ o : Offset, (locate o).access = .reserved ↔ reservedOffset o := by
  simp only [reservedOffset]
  decide

theorem locate_reserved_iff : ∀ o : Offset, locate o = .reserved ↔ reservedOffset o := by
  simp only [reservedOffset]
  decide

theorem isOutput_iff : ∀ o : Offset, (locate o).isOutput = true ↔ outputOffset o := by
  simp only [outputOffset]
  decide

/-! ### What the window shows at each array -/

theorem window_tsIn (s : State) {k : Nat} (h : k < 8) :
    s.window (offTsIn k) = getByte s.tsIn (56 - 8 * k) := by
  show s.readLoc (locate (offTsIn k)) = _
  rw [show locate (offTsIn k) = .tsIn ⟨k, h⟩ from locate_tsIn ⟨k, h⟩]
  rfl

theorem window_intIn (s : State) {k : Nat} (h : k < 16) :
    s.window (offIntIn k) = getByte s.intIn (120 - 8 * k) := by
  show s.readLoc (locate (offIntIn k)) = _
  rw [show locate (offIntIn k) = .intIn ⟨k, h⟩ from locate_intIn ⟨k, h⟩]
  rfl

theorem window_in (s : State) {i : Nat} (h : i < 26) : s.window (offIn i) = s.inLane i := by
  show s.readLoc (locate (offIn i)) = _
  rw [show locate (offIn i) = .inp ⟨i, h⟩ from locate_in ⟨i, h⟩]
  simp [State.inLane, State.readLoc, h]

theorem window_id (s : State) {i : Nat} (h : i < 16) : s.window (offId i) = s.ident[i] := by
  show s.readLoc (locate (offId i)) = _
  rw [show locate (offId i) = .ident ⟨i, h⟩ from locate_id ⟨i, h⟩]
  rfl

theorem window_wordOut (s : State) {k : Nat} (h : k < 16) :
    s.window (offWordOut k) = getByte s.wordOut (120 - 8 * k) := by
  show s.readLoc (locate (offWordOut k)) = _
  rw [show locate (offWordOut k) = .wordOut ⟨k, h⟩ from locate_wordOut ⟨k, h⟩]
  rfl

theorem window_out (s : State) {i : Nat} (h : i < 26) : s.window (offOut i) = s.out[i] := by
  show s.readLoc (locate (offOut i)) = _
  rw [show locate (offOut i) = .out ⟨i, h⟩ from locate_out ⟨i, h⟩]
  rfl

/-- A word whose bytes are known is known. -/
theorem word_of_bytes {n : Nat} (w w' : BitVec (8 * n))
    (h : ∀ i < n, getByte w (8 * (n - 1 - i)) = getByte w' (8 * (n - 1 - i))) : w = w' := by
  have h1 : bigEndianBytes n w.toNat = bigEndianBytes n w'.toNat := by
    apply Vector.ext
    intro i hi
    rw [← getByte_eq_bigEndianBytes n w i hi rfl, ← getByte_eq_bigEndianBytes n w' i hi rfl, h i hi]
  have h2 := congrArg (fun v => bigEndian v.toList) h1
  simp only [bigEndian_bigEndianBytes] at h2
  apply BitVec.eq_of_toNat_eq
  rw [show (256 : Nat) ^ n = 2 ^ (8 * n) by rw [Nat.pow_mul]] at h2
  rwa [Nat.mod_eq_of_lt w.isLt, Nat.mod_eq_of_lt w'.isLt] at h2

theorem tsIn_of_window {s t : State}
    (h : ∀ k < 8, t.window (offTsIn k) = s.window (offTsIn k)) : t.tsIn = s.tsIn := by
  apply word_of_bytes (n := 8)
  intro i hi
  have := h i hi
  rw [window_tsIn _ hi, window_tsIn _ hi] at this
  rw [show 8 * (8 - 1 - i) = 56 - 8 * i by omega]
  exact this

theorem intIn_of_window {s t : State}
    (h : ∀ k < 16, t.window (offIntIn k) = s.window (offIntIn k)) : t.intIn = s.intIn := by
  apply word_of_bytes (n := 16)
  intro i hi
  have := h i hi
  rw [window_intIn _ hi, window_intIn _ hi] at this
  rw [show 8 * (16 - 1 - i) = 120 - 8 * i by omega]
  exact this

theorem ident_of_window {s t : State}
    (h : ∀ i < 16, t.window (offId i) = s.window (offId i)) : t.ident = s.ident := by
  apply Vector.ext
  intro i hi
  rw [← window_id t hi, ← window_id s hi, h i hi]

theorem inp_of_window {s t : State}
    (h : ∀ i < 26, t.window (offIn i) = s.window (offIn i)) : t.inp = s.inp := by
  apply Vector.ext
  intro i hi
  have := h i hi
  rw [window_in _ hi, window_in _ hi] at this
  simpa [State.inLane, hi] using this

/-! ### Reads and writes -/

/-- Read after write at one place. -/
theorem readLoc_writeLoc_same (s : State) (l : Loc) (v : Byte) (h : l.access = .rw) :
    (s.writeLoc l v).readLoc l = v := by
  cases l with
  | tsIn k => exact getByte_putByte_same _ _ _ (by have := k.isLt; omega)
  | intIn k => exact getByte_putByte_same _ _ _ (by have := k.isLt; omega)
  | inp i => simp [State.writeLoc, State.readLoc]
  | ident i => simp [State.writeLoc, State.readLoc]
  | _ => first | rfl | cases h

/-- A write leaves every other place alone. -/
theorem readLoc_writeLoc_other (s : State) (l l' : Loc) (v : Byte) (h : l' ≠ l) :
    (s.writeLoc l v).readLoc l' = s.readLoc l' := by
  cases l with
  | tsIn k =>
    cases l' with
    | tsIn k' =>
      have : k'.val ≠ k.val := fun e => h (by rw [Fin.ext e])
      exact getByte_putByte_other _ _ _ _ (by have := k'.isLt; omega)
        (by have := k.isLt; have := k'.isLt; omega)
    | _ => rfl
  | intIn k =>
    cases l' with
    | intIn k' =>
      have : k'.val ≠ k.val := fun e => h (by rw [Fin.ext e])
      exact getByte_putByte_other _ _ _ _ (by have := k'.isLt; omega)
        (by have := k.isLt; have := k'.isLt; omega)
    | _ => rfl
  | inp i =>
    cases l' with
    | inp i' =>
      have : i.val ≠ i'.val := fun e => h (by rw [Fin.ext e])
      simp [State.writeLoc, State.readLoc, this]
    | _ => rfl
  | ident i =>
    cases l' with
    | ident i' =>
      have : i.val ≠ i'.val := fun e => h (by rw [Fin.ext e])
      simp [State.writeLoc, State.readLoc, this]
    | _ => rfl
  | cmd => cases l' <;> first | rfl | exact absurd rfl h
  | inLen => cases l' <;> first | rfl | exact absurd rfl h
  | _ => rfl

/-- A read changes at most the counter of draws. -/
theorem hostRead_state (s : State) (off : Offset) :
    (hostRead s off).2 = { s with draws := (hostRead s off).2.draws } := by
  unfold hostRead
  split <;> rfl

/-- While `BUSY = 0` a read gives the byte at the offset and changes nothing (R52). -/
theorem hostRead_idle (s : State) (off : Offset) (h : s.busy = false) :
    hostRead s off = (s.window off, s) := by
  simp [hostRead, h, State.window]

@[simp] theorem hostRead_status (s : State) : hostRead s offStatus = (s.status, s) := by
  simp [hostRead, Loc.isOutput, State.readLoc]

/-- All a host write can do (R53). -/
theorem hostWrite_cases {s t : State} {off : Offset} {v : Byte} (h : hostWrite s off v = .next t) :
    t = s ∧ ((locate off).access = .ro ∨ (locate off).access = .reserved ∨
        (locate off).access = .wo ∧ s.busy = false ∧ v.getLsbD 0 = false) ∨
      t = s.start ∧ s.busy = false ∧ (locate off).access = .wo ∧ v.getLsbD 0 = true ∨
      t = s.writeLoc (locate off) v ∧ s.busy = false ∧ (locate off).access = .rw := by
  unfold hostWrite at h
  split at h
  · rename_i ha
    cases h
    exact .inl ⟨rfl, .inr (.inl ha)⟩
  · rename_i ha
    cases h
    exact .inl ⟨rfl, .inl ha⟩
  · rename_i ha
    split at h
    · cases h
    · rename_i hb
      have hb : s.busy = false := by simpa using hb
      split at h
      · rename_i hv
        cases h
        exact .inr (.inl ⟨rfl, hb, ha, hv⟩)
      · rename_i hv
        cases h
        exact .inl ⟨rfl, .inr (.inr ⟨ha, hb, by simpa using hv⟩)⟩
  · rename_i ha
    split at h
    · cases h
    · rename_i hb
      cases h
      exact .inr (.inr ⟨rfl, by simpa using hb, ha⟩)

/-- A host write stops exactly when it is made while `BUSY = 1` to a place that is neither read-only
nor reserved (R264), and it is never refused. -/
theorem hostWrite_fault_iff (s : State) (off : Offset) (v : Byte) (f : Fault) :
    hostWrite s off v = .fault f ↔
      s.busy = true ∧ ((locate off).access = .wo ∨ (locate off).access = .rw) ∧
        f = .hostWriteWhileBusy off := by
  unfold hostWrite
  cases ha : (locate off).access <;> cases hb : s.busy <;> simp only [Bool.false_eq_true, if_false,
    if_true, reduceCtorEq, false_and, and_false, or_false, true_and, or_true,
    Host.Outcome.fault.injEq, eq_comm (a := f)]
  split <;> simp

theorem hostWrite_not_refused (s : State) (off : Offset) (v : Byte) (r : Refusal) :
    hostWrite s off v ≠ .refused r := by
  unfold hostWrite
  cases (locate off).access <;> cases s.busy <;> simp
  split <;> simp

end Sys2Proof.Machine
end

