-- ==== Sys2Proof/Laws/Step.lean ====
section
/-! SUPPORT. What one step can do, said once (spec/10_state.md R20, spec/70_reset_and_hazards.md R260,
R262): the unit completes the command in `CMD`, or the host does its next action, or nothing
happens. -/

namespace Sys2Proof.Machine

/-! ### The decoder -/

theorem decode_encode (i : Instr) : decode (encode i) = .ok i := by cases i <;> rfl

/-- Each command has one word. -/
theorem encode_of_decode : ∀ c : Byte, ∀ i, decode c = .ok i → encode i = c := by
  have h : ∀ c : Byte, (match decode c with | .ok i => encode i == c | .error _ => true) = true := by
    decide
  intro c i hc
  have := h c
  rw [hc] at this
  simpa using this

/-- The reserved values of R74. -/
theorem decode_reserved_iff : ∀ c : Byte,
    decode c = .error (.reservedOpcode c) ↔ (c = 0x00 ∨ 0x0C ≤ c.toNat) := by decide

theorem decode_error {c : Byte} {r : DecodeReject} (h : decode c = .error r) :
    r = .reservedOpcode c := by
  unfold decode at h
  split at h
  · cases h
  · cases h; rfl

/-! ### The unit -/

/-- The unit completes its command (R260). -/
theorem unitStep_next (s : State) :
    ∃ st ei lns word rel, unitStep s = .next (s.complete st ei lns word rel) := by
  unfold unitStep
  split
  · exact exec_next _ s
  · exact ⟨_, _, _, _, _, rfl⟩

/-- What a completion leaves (R205, R210): outputs R72 allows after a success, clear outputs after an
error. -/
theorem unitStep_cases (s : State) :
    (∃ lns word rel, unitStep s = finish s lns word rel ∧ LegalOutputs lns word rel) ∨
      (∃ e, unitStep s = raise s e ∧ e.Legal) := by
  unfold unitStep
  split
  · exact exec_cases _ s
  · exact .inr ⟨_, rfl, trivial⟩

/-- A completion clears `BUSY`. -/
theorem unitStep_not_busy {s t : State} (h : unitStep s = .next t) : t.busy = false := by
  rcases unitStep_cases s with ⟨l, w, r, h', -⟩ | ⟨e, h', -⟩
  · rw [h] at h'
    cases h'
    simp [State.busy, statusDone]
  · rw [h] at h'
    cases h'
    simp only [State.busy, State.complete_status, ErrKind.statusByte_busy]

/-! ### Whose turn it is -/

theorem step_unit {s : State} (h : s.unitTurn = true) : step s = unitStep s := by
  simp [step, nextStep, h]

theorem step_host {s : State} {a : HostAction} {rest : List HostAction} (h : s.unitTurn = false)
    (hh : s.host = a :: rest) : step s = hostStep s.tick a rest := by
  simp [step, nextStep, h, hh]

theorem step_idle {s : State} (h : s.unitTurn = false) (hh : s.host = []) : step s = .next s := by
  simp [step, nextStep, h, hh]

theorem unitTurn_of_idle {s : State} (h : s.busy = false) : s.unitTurn = false := by
  simp [State.unitTurn, h]

theorem busy_of_unitTurn {s : State} (h : s.unitTurn = true) : s.busy = true := by
  simp only [State.unitTurn, Bool.and_eq_true] at h
  exact h.1

/-- A placed command word is the unit's next. -/
theorem unitTurn_withFetchWord (s : State) (nbits w : Nat) :
    (s.withFetchWord nbits w).unitTurn = true := by
  simp [State.withFetchWord, State.unitTurn, State.busy, statusBusy]

theorem withFetchWord_cmd_encode (s : State) (i : Instr) :
    (s.withFetchWord 8 (encode i).toNat).cmd = encode i := by
  have := (encode i).isLt
  apply BitVec.eq_of_toNat_eq
  simp only [State.withFetchWord, State.placeCommand_cmd, BitVec.toNat_ofNat]
  omega

/-- The inversion of a step. -/
theorem step_cases {s t : State} (h : step s = .next t) :
    (s.unitTurn = true ∧ unitStep s = .next t) ∨
      (s.unitTurn = false ∧ s.host = [] ∧ t = s) ∨
      (s.unitTurn = false ∧ ∃ a rest, s.host = a :: rest ∧ hostStep s.tick a rest = .next t) := by
  cases hu : s.unitTurn with
  | true => exact .inl ⟨rfl, by rw [← step_unit hu]; exact h⟩
  | false =>
    cases hh : s.host with
    | nil =>
      rw [step_idle hu hh] at h
      cases h
      exact .inr (.inl ⟨rfl, rfl, rfl⟩)
    | cons a rest => exact .inr (.inr ⟨rfl, a, rest, rfl, by rw [← step_host hu hh]; exact h⟩)

/-! ### The host -/

/-- Does an action start a command when the block is idle? -/
def HostAction.starts : HostAction → Bool
  | .start => true
  | .wrb off v => (locate off).access == .wo && v.getLsbD 0
  | _ => false

theorem starts_iff (a : HostAction) : a.starts = true ↔ a.StartsCommand := by
  cases a with
  | wrb off v =>
    simp only [HostAction.starts, HostAction.StartsCommand, Bool.and_eq_true, beq_iff_eq,
      access_wo_iff]
    constructor
    · rintro ⟨rfl, h⟩
      exact .inr ⟨v, rfl, h⟩
    · rintro (h | ⟨v', h, h'⟩)
      · cases h
      · cases h
        exact ⟨rfl, h'⟩
  | start => simp [HostAction.starts, HostAction.StartsCommand]
  | _ => simp [HostAction.starts, HostAction.StartsCommand]

/-- All a host action can do. -/
theorem hostStep_cases {s t : State} {a : HostAction} {rest : List HostAction}
    (h : hostStep s a rest = .next t) :
    (t = { s with host := rest } ∧ a ≠ .assertReset ∧ (a = .wait → s.busy = false)) ∨
      (t = ({ s with host := rest } : State).start ∧ s.busy = false ∧ a.starts = true) ∨
      (∃ l v off, a = .wrb off v ∧ l = locate off ∧ l.access = .rw ∧ s.busy = false ∧
        t = ({ s with host := rest } : State).writeLoc l v) ∨
      (∃ off x v d, a = .rdb off x ∧
        t = ({ s with host := rest, draws := d } : State).assign x v) ∨
      (a = .wait ∧ s.busy = true ∧ t = { s with host := .wait :: rest }) ∨
      (a = .assertReset ∧ t = ({ s with host := rest } : State).assertReset) := by
  cases a with
  | wrb off v =>
    rcases hostWrite_cases h with ⟨rfl, -⟩ | ⟨rfl, hb, ha, hv⟩ | ⟨rfl, hb, ha⟩
    · exact .inl ⟨rfl, nofun, nofun⟩
    · exact .inr (.inl ⟨rfl, hb, by simp [HostAction.starts, ha, hv]⟩)
    · exact .inr (.inr (.inl ⟨_, v, off, rfl, rfl, ha, hb, rfl⟩))
  | start =>
    have h' : hostWrite { s with host := rest } offCtrl 0x01 = .next t := h
    rcases hostWrite_cases h' with ⟨rfl, -⟩ | ⟨rfl, hb, ha, hv⟩ | ⟨rfl, hb, ha⟩
    · exact .inl ⟨rfl, nofun, nofun⟩
    · exact .inr (.inl ⟨rfl, hb, rfl⟩)
    · simp [Loc.access] at ha
  | rdb off x =>
    refine .inr (.inr (.inr (.inl
      ⟨off, x, (hostRead { s with host := rest } off).1,
        (hostRead { s with host := rest } off).2.draws, rfl, ?_⟩)))
    simp only [hostStep, Host.Outcome.next.injEq] at h
    rw [← h]
    conv_lhs => rw [hostRead_state]
  | wait =>
    simp only [hostStep, hostRead_status] at h
    split at h
    · rename_i hb
      cases h
      exact .inr (.inr (.inr (.inr (.inl ⟨rfl, hb, rfl⟩))))
    · rename_i hb
      cases h
      exact .inl ⟨rfl, nofun, fun _ => by simpa [State.busy] using hb⟩
  | wide off n => cases h
  | assertReset =>
    cases h
    exact .inr (.inr (.inr (.inr (.inr ⟨rfl, rfl⟩))))

/-! ### One action of an idle or polling host -/

theorem write_step {s : State} {off : Offset} {v : Byte} {rest : List HostAction}
    (hb : s.busy = false) (ha : (locate off).access = .rw) (hh : s.host = .wrb off v :: rest) :
    step s = .next (({ s.tick with host := rest } : State).writeLoc (locate off) v) := by
  have hb' : ({ s.tick with host := rest } : State).busy = false := hb
  rw [step_host (unitTurn_of_idle hb) hh]
  simp only [hostStep, hostWrite, ha, hb', Bool.false_eq_true, if_false]

theorem start_step {s : State} {rest : List HostAction} (hb : s.busy = false)
    (hh : s.host = .start :: rest) :
    step s = .next ({ s.tick with host := rest } : State).start := by
  have hb' : ({ s.tick with host := rest } : State).busy = false := hb
  rw [step_host (unitTurn_of_idle hb) hh]
  show hostWrite { s.tick with host := rest } offCtrl 0x01 = _
  simp only [hostWrite, locate_ctrl, Loc.access, hb', Bool.false_eq_true, if_false]
  rfl

theorem read_step {s : State} {off : Offset} {x : HostVar} {rest : List HostAction}
    (hb : s.busy = false) (hh : s.host = .rdb off x :: rest) :
    step s = .next (({ s.tick with host := rest } : State).assign x (s.window off)) := by
  rw [step_host (unitTurn_of_idle hb) hh]
  have : hostRead { s.tick with host := rest } off
      = (s.window off, { s.tick with host := rest }) := by
    rw [hostRead_idle _ _ (show ({ s.tick with host := rest } : State).busy = false from hb)]
    cases hl : locate off <;> simp [State.window, hl] <;> rfl
  simp only [hostStep, this]

/-- A `WAIT` that finds `BUSY = 1` stays. -/
theorem wait_poll {s : State} {rest : List HostAction} (hb : s.busy = true)
    (hu : s.unitTurn = false) (hh : s.host = .wait :: rest) :
    step s = .next { s with wait := s.wait - 1 } := by
  rw [step_host hu hh]
  have hb' : s.status.getLsbD 1 = true := hb
  simp only [hostStep, hostRead_status, State.tick_status, hb', if_true, Host.Outcome.next.injEq]
  cases s
  cases hh
  rfl

/-- A `WAIT` that finds `BUSY = 0` ends. -/
theorem wait_done {s : State} {rest : List HostAction} (hb : s.busy = false)
    (hh : s.host = .wait :: rest) :
    step s = .next { s with wait := s.wait - 1, host := rest } := by
  rw [step_host (unitTurn_of_idle hb) hh]
  have hb' : s.status.getLsbD 1 = false := hb
  simp only [hostStep, hostRead_status, State.tick_status, hb', Bool.false_eq_true, if_false]
  rfl

end Sys2Proof.Machine
end

