-- ==== Sys2Proof/Laws/HostProgram.lean ====
section
/-! SUPPORT. Runs of the host's actions (spec/30_encoding.md R76 to R79): adding up steps, writing a
list of registers, reading one, and that a run which comes to its end never stops. -/

namespace Sys2Proof.Machine

open Host (Core)

theorem run_zero (s : State) : Core.run core 0 s = .next s := rfl

theorem run_succ {s t : State} {k : Nat} (h : step s = .next t) :
    Core.run core (k + 1) s = Core.run core k t := by
  simp only [Core.run]
  rw [show core.step s = .next t from h]

theorem run_add : ∀ {j k : Nat} {s t : State}, Core.run core j s = .next t →
    Core.run core (j + k) s = Core.run core k t
  | 0, k, s, t, h => by
    cases h
    simp
  | j + 1, k, s, t, h => by
    rw [Nat.add_right_comm]
    simp only [Core.run] at h ⊢
    cases hs : core.step s with
    | next u =>
      rw [hs] at h
      exact run_add h
    | fault f =>
      rw [hs] at h
      cases h
    | refused f =>
      rw [hs] at h
      cases h

theorem run_one {s t : State} (h : step s = .next t) : Core.run core 1 s = .next t := by
  rw [show (1 : Nat) = 0 + 1 from rfl, run_succ h, run_zero]

/-! ### Offsets of an array -/

theorem toNat_offset (b i : Nat) (h : b + i < 128) : (BitVec.ofNat 7 (b + i)).toNat = b + i := by
  simp
  omega

theorem ne_offset {o : Offset} {b i : Nat} (h : o.toNat ≠ b + i) (hb : b + i < 128) :
    o ≠ BitVec.ofNat 7 (b + i) := by
  intro e
  subst e
  simp only [BitVec.toNat_ofNat] at h
  omega

theorem nodup_offsets {f : Nat → Offset} {b n : Nat} (hf : ∀ i, f i = BitVec.ofNat 7 (b + i))
    (h : b + n ≤ 128) : ((List.range n).map f).Nodup := by
  apply List.Nodup.map_on _ List.nodup_range
  intro x hx y hy e
  rw [hf, hf] at e
  have := congrArg BitVec.toNat e
  simp only [BitVec.toNat_ofNat, List.mem_range] at this hx hy
  omega

/-! ### A list of writes -/

/-- The writes of a list of offsets and bytes. -/
def writes (l : List (Offset × Byte)) : List HostAction := l.map fun p => .wrb p.1 p.2

/-- What a list of writes from an idle state leaves: the rest of the host's actions, idle, every
output and host variable as before. -/
structure Loaded (s t : State) (rest : List HostAction) : Prop where
  host : t.host = rest
  busy : t.busy = false
  vars : t.vars = s.vars
  out  : SameOutputs s t

theorem writes_run : ∀ (l : List (Offset × Byte)) (s : State) (rest : List HostAction),
    s.busy = false → s.host = writes l ++ rest → (∀ p ∈ l, (locate p.1).access = .rw) →
    (l.map Prod.fst).Nodup →
    ∃ t : State, Core.run core l.length s = .next t ∧ Loaded s t rest ∧
      (∀ p ∈ l, t.window p.1 = p.2) ∧ ∀ o, o ∉ l.map Prod.fst → t.window o = s.window o
  | [], s, rest, hb, hh, _, _ =>
    ⟨s, rfl, ⟨hh, hb, rfl, rfl, rfl, rfl, rfl, rfl, rfl⟩, by simp, by simp⟩
  | p :: l, s, rest, hb, hh, ha, hn => by
    have hap := ha p (by simp)
    have h1 := write_step (rest := writes l ++ rest) hb hap hh
    set s1 := ({ s.tick with host := writes l ++ rest } : State).writeLoc (locate p.1) p.2 with hs1
    have hb1 : s1.busy = false := by
      rw [hs1, State.writeLoc_busy]
      exact hb
    have hh1 : s1.host = writes l ++ rest := by
      rw [hs1]
      simp
    simp only [List.map_cons, List.nodup_cons] at hn
    obtain ⟨t, r1, ⟨r2, r3, r5, r4⟩, r6, r7⟩ := writes_run l s1 rest hb1 hh1
      (fun q hq => ha q (List.mem_cons_of_mem _ hq)) hn.2
    refine ⟨t, by rw [List.length_cons, run_succ h1, r1],
      ⟨r2, r3, by rw [r5, hs1]; simp, ⟨?_, ?_, ?_, ?_, ?_, ?_⟩⟩, ?_, ?_⟩
    · rw [r4.1, hs1]; simp
    · rw [r4.2, hs1]; simp
    · rw [r4.3, hs1]; simp
    · rw [r4.4, hs1]; simp
    · rw [r4.5, hs1]; simp
    · rw [r4.6, hs1]; simp
    · intro q hq
      rcases List.mem_cons.1 hq with rfl | hq
      · rw [r7 _ hn.1]
        exact readLoc_writeLoc_same _ _ _ hap
      · exact r6 q hq
    · intro o ho
      simp only [List.map_cons, List.mem_cons, not_or] at ho
      rw [r7 o ho.2, State.window, readLoc_writeLoc_other]
      · cases hl : locate o <;> simp [State.window, hl] <;> rfl
      · intro e
        exact ho.1 (locate_inj e.symm (fun hr => by rw [hr] at hap; cases hap)).symm

theorem writeEach_eq (f : Nat → Offset) (xs : List Byte) :
    writeEach f xs = writes (xs.zipIdx.map fun p => (f p.2, p.1)) := by
  simp [writeEach, writes, List.map_map, Function.comp_def]

theorem mem_zipIdx_map {xs : List Byte} {f : Nat → Offset} {q : Offset × Byte} :
    q ∈ (xs.zipIdx.map fun p => (f p.2, p.1)) ↔ ∃ i, ∃ h : i < xs.length, q = (f i, xs[i]) := by
  rw [List.mem_map]
  constructor
  · rintro ⟨⟨x, i⟩, h, rfl⟩
    rw [List.mk_mem_zipIdx_iff_getElem?] at h
    obtain ⟨h1, h2⟩ := List.getElem?_eq_some_iff.1 h
    exact ⟨i, h1, by rw [h2]⟩
  · rintro ⟨i, h, rfl⟩
    exact ⟨(xs[i], i), by rw [List.mk_mem_zipIdx_iff_getElem?]; simp, rfl⟩

theorem map_fst_zipIdx_map {xs : List Byte} {f : Nat → Offset} :
    (xs.zipIdx.map fun p => (f p.2, p.1)).map Prod.fst = (List.range xs.length).map f := by
  apply List.ext_getElem
  · simp
  · intro i h1 h2
    simp

/-- Writing a list of bytes to consecutive RW offsets from an idle state. -/
theorem writeEach_run (f : Nat → Offset) (xs : List Byte) (b : Nat) (s : State)
    (rest : List HostAction) (hf : ∀ i, f i = BitVec.ofNat 7 (b + i)) (hlen : b + xs.length ≤ 128)
    (hb : s.busy = false) (hh : s.host = writeEach f xs ++ rest)
    (ha : ∀ i < xs.length, (locate (f i)).access = .rw) :
    ∃ t : State, Core.run core xs.length s = .next t ∧ Loaded s t rest ∧
      (∀ i, ∀ h : i < xs.length, t.window (f i) = xs[i]) ∧
      ∀ o, (∀ i < xs.length, o ≠ f i) → t.window o = s.window o := by
  rw [writeEach_eq] at hh
  obtain ⟨t, r1, r2, r6, r7⟩ := writes_run _ s rest hb hh
    (by
      intro p hp
      obtain ⟨i, h, rfl⟩ := mem_zipIdx_map.1 hp
      exact ha i h)
    (by
      rw [map_fst_zipIdx_map]
      exact nodup_offsets hf hlen)
  refine ⟨t, by simpa using r1, r2, fun i h => r6 (f i, xs[i]) (mem_zipIdx_map.2 ⟨i, h, rfl⟩),
    fun o ho => r7 o ?_⟩
  rw [map_fst_zipIdx_map]
  simp only [List.mem_map, List.mem_range, not_exists, not_and]
  intro i hi e
  exact ho i hi e.symm

/-! ### A list of reads -/

/-- Reading consecutive offsets into an array of host variables from an idle state. -/
theorem readEach_run (f : Nat → Offset) (name : String) :
    ∀ (n a : Nat) (s : State) (rest : List HostAction), s.busy = false →
    s.host = (List.range' a n).map (fun i => HostAction.rdb (f i) ⟨name, i⟩) ++ rest →
    ∃ t : State, Core.run core n s = .next t ∧ t.host = rest ∧ t.busy = false ∧
      SameInputs s t ∧ SameOutputs s t ∧
      (∀ i, a ≤ i → i < a + n → t.var ⟨name, i⟩ = some (s.window (f i))) ∧
      ∀ i, i < a → t.var ⟨name, i⟩ = s.var ⟨name, i⟩
  | 0, a, s, rest, hb, hh =>
    ⟨s, rfl, by simpa using hh, hb, ⟨rfl, rfl, rfl, rfl, rfl, rfl⟩,
      ⟨rfl, rfl, rfl, rfl, rfl, rfl⟩, by intro i h1 h2; omega, fun _ _ => rfl⟩
  | n + 1, a, s, rest, hb, hh => by
    rw [List.range'_succ] at hh
    have h1 := read_step (rest := (List.range' (a + 1) n).map
      (fun i => HostAction.rdb (f i) ⟨name, i⟩) ++ rest) hb hh
    set acts := (List.range' (a + 1) n).map (fun i => HostAction.rdb (f i) ⟨name, i⟩) ++ rest
    set s1 := ({ s.tick with host := acts } : State).assign ⟨name, a⟩ (s.window (f a)) with hs1
    obtain ⟨t, r1, r2, r3, r4, r5, r6, r7⟩ := readEach_run f name n (a + 1) s1 rest hb rfl
    have hw : ∀ o, s1.window o = s.window o := by
      intro o
      cases hl : locate o <;> simp [State.window, hl] <;> rfl
    refine ⟨t, by rw [run_succ h1, r1], r2, r3, ⟨r4.1, r4.2, r4.3, r4.4, r4.5, r4.6⟩,
      ⟨r5.1, r5.2, r5.3, r5.4, r5.5, r5.6⟩, ?_, ?_⟩
    · intro i h1 h2
      by_cases e : i = a
      · subst e
        rw [r7 i (by omega)]
        exact var_assign_same _ _ _
      · rw [r6 i (by omega) (by omega), hw]
    · intro i hi
      rw [r7 i (by omega)]
      exact var_assign_other _ _ (by simp; omega)

/-! ### Runs that end -/

theorem run_of_reaches {s t : State} (h : Reaches s t) : ∃ k, Core.run core k s = .next t := by
  induction h with
  | refl => exact ⟨0, rfl⟩
  | tail h1 h2 ih =>
    obtain ⟨k, hk⟩ := ih
    exact ⟨k + 1, by rw [run_add hk, run_one h2]⟩

theorem step_final {s : State} (h : s.Final) : step s = .next s :=
  step_idle (unitTurn_of_idle h.2) h.1

theorem run_final {s : State} (h : s.Final) : ∀ k, Core.run core k s = .next s
  | 0 => rfl
  | k + 1 => by
    rw [run_succ (step_final h)]
    exact run_final h k

/-- A run that comes to its end never stops on the way, the step being a function. -/
theorem safe_of_run_final {s u : State} {k : Nat} (h : Core.run core k s = .next u)
    (hf : u.Final) : s.Safe := by
  intro t ht hs
  obtain ⟨j, hj⟩ := run_of_reaches ht
  have hk : Core.run core (k + (j + 1)) s = .next u := by rw [run_add h, run_final hf]
  rw [show k + (j + 1) = j + (k + 1) by omega, run_add hj] at hk
  simp only [Core.run] at hk
  cases hst : step t with
  | next v => exact hs v hst
  | fault f =>
    rw [show core.step t = step t from rfl, hst] at hk
    cases hk
  | refused f =>
    rw [show core.step t = step t from rfl, hst] at hk
    cases hk

end Sys2Proof.Machine
end

