-- ==== Sys2Proof/Laws/Lanes.lean ====
section
/-! SUPPORT. The lanes of `IN` as the commands read them: which characters the encoders write
(spec/40_encode.md R102 to R104) and what the scan of the decoders answers on them
(spec/41_decode.md R120 to R122). -/

namespace Sys2Proof.Machine

theorem inLane_eq (s : State) (k : Nat) (h : k < 26) : s.inLane k = s.inp[k] := by
  simp [State.inLane, h]

theorem toList_lanes_inp (s : State) (n : Nat) (h : 0 + n ≤ 26) :
    (lanes s.inp 0 n h).toList = s.inList n := toList_lanes_zero _ _

theorem lanes_of_inList {s : State} {n : Nat} {l : Vector Byte n} (hn : 0 + n ≤ 26)
    (h : s.inList n = l.toList) : lanes s.inp 0 n hn = l := by
  apply Vector.toList_inj.1
  rw [toList_lanes_inp, h]

theorem inp_eq_lanes (s : State) : s.inp = lanes s.inp 0 26 (by decide) := by
  apply Vector.ext
  intro i hi
  simp

theorem lanes_lanes {α : Type} {j : Nat} (v : Vector α j) {n k m : Nat} (h : 0 + m ≤ j)
    (h2 : n + k ≤ m) (h3 : n + k ≤ j) : lanes (lanes v 0 m h) n k h2 = lanes v n k h3 := by
  apply Vector.ext
  intro i hi
  simp

/-! ### The encoders -/

theorem toList_map_encodeChar {n : Nat} (v : Vector Group n) :
    (mapLanes encodeChar v).toList = (groupValues v).map charOf := by
  rw [toList_mapLanes, groupValues, List.map_map]
  congr 1
  funext g
  exact encodeChar_eq_charOf g

theorem groupValues_eq_base32Digits {n : Nat} (v : Vector Group n) :
    groupValues v = base32Digits n (base32Value (groupValues v)) := by
  have := base32Digits_base32Value (groupValues_lt v)
  rw [length_groupValues] at this
  exact this.symm

theorem encodeTimestamp_inp (s : State) :
    (encodeTimestamp (lanes s.inp 0 6)).toList = (timestampGroups s.inLane).map charOf := by
  rw [encodeTimestamp, toList_map_encodeChar, groupValues_packTimestamp]
  congr 1
  simp [timestampGroups, inLane_eq]

theorem toList_encodeRandomness (b : Vector Byte 10) :
    (encodeRandomness b).toList = (base32Digits 16 (bigEndian b.toList)).map charOf := by
  rw [encodeRandomness, toList_map_encodeChar, groupValues_eq_base32Digits,
    base32Value_packRandomness]

/-! ### The characters of given values -/

/-- The groups of given values. -/
def groupsOfValues (n : Nat) (v : Nat → Nat) : Vector Group n :=
  Vector.ofFn fun i => BitVec.ofNat 5 (v i)

theorem lanes_of_spells {s : State} {n : Nat} {v : Nat → Nat} (h : s.Spells n v)
    (hn : 0 + n ≤ 26) : lanes s.inp 0 n hn = mapLanes encodeChar (groupsOfValues n v) := by
  apply Vector.ext
  intro i hi
  obtain ⟨h1, h2⟩ := h i hi
  rw [inLane_eq _ _ (by omega)] at h2
  simp only [getElem_lanes, getElem_mapLanes, groupsOfValues, Vector.getElem_ofFn, Nat.zero_add, h2,
    encodeChar_eq_charOf, BitVec.toNat_ofNat]
  rw [Nat.mod_eq_of_lt h1]

theorem groupValues_groupsOfValues {n : Nat} {v : Nat → Nat} (h : ∀ k < n, v k < 32) :
    groupValues (groupsOfValues n v) = (List.range n).map v := by
  apply List.ext_getElem
  · simp
  · intro i h1 h2
    simp only [length_groupValues] at h1
    simp [groupValues, groupsOfValues]
    exact h i h1

theorem groupsOfValues_zero {n : Nat} {v : Nat → Nat} (hn : 0 < n) (h0 : v 0 ≤ 7) :
    (groupsOfValues n v)[0].toNat ≤ 7 := by
  simp only [groupsOfValues, Vector.getElem_ofFn, BitVec.toNat_ofNat]
  omega

theorem lanes_groupsOfValues (v : Nat → Nat) {m : Nat} (start n : Nat) (h : start + n ≤ m) :
    lanes (groupsOfValues m v) start n h = groupsOfValues n fun k => v (start + k) := by
  apply Vector.ext
  intro i hi
  simp [groupsOfValues]

theorem toList_of_values {n : Nat} {b : Vector Byte n} {l : List Nat}
    (h : b.toList.map BitVec.toNat = l) : b.toList = l.map (BitVec.ofNat 8) := by
  rw [← h, List.map_map]
  conv_lhs => rw [← List.map_id b.toList]
  congr 1
  funext x
  simp

/-- The byte formulas read ten and sixteen values. -/
theorem timestampBytes_congr {v w : Nat → Nat} (h : ∀ k < 10, v k = w k) :
    timestampBytes v = timestampBytes w := by
  simp only [timestampBytes, h 0 (by decide), h 1 (by decide), h 2 (by decide), h 3 (by decide),
    h 4 (by decide), h 5 (by decide), h 6 (by decide), h 7 (by decide), h 8 (by decide),
    h 9 (by decide)]

theorem randomnessBytes_congr {v w : Nat → Nat} (h : ∀ k < 16, v k = w k) :
    randomnessBytes v = randomnessBytes w := by
  simp only [randomnessBytes, halfBytes, h 0 (by decide), h 1 (by decide), h 2 (by decide),
    h 3 (by decide), h 4 (by decide), h 5 (by decide), h 6 (by decide), h 7 (by decide),
    h 8 (by decide), h 9 (by decide), h 10 (by decide), h 11 (by decide), h 12 (by decide),
    h 13 (by decide), h 14 (by decide), h 15 (by decide)]

/-! ### The scan -/

theorem mem_drop_encodeRom_iff : ∀ c : Byte,
    c ∈ encodeRom.toList.drop 8 ↔ ∃ v ∈ lookup c, 7 < v.toNat := by decide

theorem mem_take_encodeRom_iff : ∀ c : Byte,
    c ∈ encodeRom.toList.take 8 ↔ ∃ v ∈ lookup c, v.toNat ≤ 7 := by decide

theorem validate_ok_iff {n : Nat} (ts : Bool) (codes : Vector Byte n) :
    (∃ v, validate ts codes = .ok v) ↔ (∀ c ∈ codes.toList, (lookup c).isSome = true) ∧
      (ts = true → ∀ c ∈ codes.toList.head?, ∀ v ∈ lookup c, v.toNat ≤ 7) := by
  have := scanError_eq_none_iff ts 0 codes.toList
  simp only [true_implies] at this
  rw [← this]
  unfold validate
  cases scanError ts 0 codes.toList <;> simp

/-- The scan of the lanes reports the lowest one outside the alphabet. -/
theorem validate_badLane {s : State} {n i : Nat} {ts : Bool} (hn : 0 + n ≤ 26)
    (h : s.BadLane n i) (ho : ts = true → ¬ s.FirstOverflows) :
    validate ts (lanes s.inp 0 n hn) = .error (.alphabet i false) := by
  obtain ⟨h1, h2, h3⟩ := h
  have hl : (lanes s.inp 0 n hn).toList
      = s.inList i ++ s.inLane i :: (s.inp.toList.take n).drop (i + 1) := by
    rw [toList_lanes_inp, State.inList, State.inList]
    have e : (s.inp.toList.take n).drop i
        = s.inLane i :: (s.inp.toList.take n).drop (i + 1) := by
      rw [List.drop_eq_getElem_cons (by simp; omega)]
      simp [State.inLane, show i < 26 by omega]
    rw [← e]
    conv_lhs => rw [← List.take_append_drop i (s.inp.toList.take n)]
    rw [List.take_take, Nat.min_eq_left (by omega)]
  have hmem : ∀ x ∈ s.inList i, (lookup x).isSome = true := by
    intro x hx
    obtain ⟨j, hj, rfl⟩ := List.getElem_of_mem hx
    simp [State.inList] at hj
    have := (mem_encodeRom_iff _).1 (h3 j hj.1)
    simpa [State.inList, State.inLane, hj] using this
  have := scanError_of_bad_lane (ts := ts) (i := 0) (post := (s.inp.toList.take n).drop (i + 1))
    hmem (lookup_none_of_not_mem _ h2) (by
      intro hts _ x hx v hv
      have hx0 : x = s.inLane 0 := by
        cases i with
        | zero => simp [State.inList] at hx
        | succ i => simp [State.inList, State.inLane, List.head?_eq_getElem?] at hx ⊢; exact hx.symm
      subst hx0
      by_contra hc
      exact ho hts ((mem_drop_encodeRom_iff _).2 ⟨v, hv, by omega⟩))
  simp only [validate, hl, this]
  simp [State.inList, show i ≤ 26 by omega]

/-- The scan of a timestamp reports an overflowing first character first. -/
theorem validate_overflow {s : State} {n : Nat} (hn : 0 + n ≤ 26) (h0 : 0 < n)
    (h : s.FirstOverflows) : validate true (lanes s.inp 0 n hn) = .error (.alphabet 0 true) := by
  obtain ⟨v, hv, h7⟩ := (mem_drop_encodeRom_iff _).1 h
  have hl : (lanes s.inp 0 n hn).toList = s.inLane 0 :: (s.inp.toList.take n).drop 1 := by
    rw [toList_lanes_inp, State.inList]
    conv_lhs => rw [← List.drop_zero (l := s.inp.toList.take n)]
    rw [List.drop_eq_getElem_cons (by simp; omega)]
    simp [State.inLane]
  simp only [validate, hl, scanError_overflow hv h7]

theorem infoByte_alphabet (i : Nat) :
    (ErrKind.alphabet i false).infoByte = BitVec.ofNat 8 i := by
  simp [ErrKind.infoByte]

end Sys2Proof.Machine
end

