-- ==== Sys2Proof/Laws/Order.lean ====
section
/-! SUPPORT. Lexicographic order (spec/00_scope.md R14): what the recursive comparison says, and that
on arrays of one length it is the order of the big-endian values and of the base-32 strings. -/

namespace Sys2Proof.Machine

theorem lexCompare_eq_iff : ∀ {A B : List Byte}, lexCompare A B = .eq ↔ A = B
  | [], [] => by simp [lexCompare]
  | [], _ :: _ => by simp [lexCompare]
  | _ :: _, [] => by simp [lexCompare]
  | a :: as, b :: bs => by
    have ih := lexCompare_eq_iff (A := as) (B := bs)
    simp only [lexCompare]
    split
    · simp only [reduceCtorEq, List.cons.injEq, false_iff, not_and]
      intro h; subst h; omega
    · split
      · simp only [reduceCtorEq, List.cons.injEq, false_iff, not_and]
        intro h; subst h; omega
      · have : a = b := BitVec.eq_of_toNat_eq (by omega)
        simp [this, ih]

theorem lexCompare_swap : ∀ A B : List Byte, (lexCompare A B).swap = lexCompare B A
  | [], [] => rfl
  | [], _ :: _ => rfl
  | _ :: _, [] => rfl
  | a :: as, b :: bs => by
    have ih := lexCompare_swap as bs
    simp only [lexCompare]
    by_cases h1 : a.toNat < b.toNat
    · simp [h1, show ¬ b.toNat < a.toNat by omega]
    · by_cases h2 : b.toNat < a.toNat
      · simp [h1, h2]
      · simp [h1, h2, ih]

theorem lexLess_cons (a b : Byte) (as bs : List Byte) :
    LexLess (a :: as) (b :: bs) ↔ a.toNat < b.toNat ∨ a = b ∧ LexLess as bs := by
  constructor
  · rintro (⟨k, h1, h2, h3, h4⟩ | ⟨h1, h2⟩)
    · cases k with
      | zero => exact .inl (by simpa using h3)
      | succ k =>
        simp only [List.take_succ_cons, List.cons.injEq] at h4
        exact .inr ⟨h4.1, .inl ⟨k, by simpa using h1, by simpa using h2, by simpa using h3, h4.2⟩⟩
    · simp only [List.length_cons, List.take_succ_cons, List.cons.injEq] at h1 h2
      exact .inr ⟨h2.1, .inr ⟨by omega, h2.2⟩⟩
  · rintro (h | ⟨rfl, ⟨k, h1, h2, h3, h4⟩ | ⟨h1, h2⟩⟩)
    · exact .inl ⟨0, by simp, by simp, by simpa using h, by simp⟩
    · exact .inl ⟨k + 1, by simpa using h1, by simpa using h2, by simpa using h3, by simp [h4]⟩
    · exact .inr ⟨by simpa using h1, by simpa using h2⟩

/-- The comparison answers `LT` exactly when R14's `<_lex` holds. -/
theorem lexCompare_lt_iff : ∀ {A B : List Byte}, lexCompare A B = .lt ↔ LexLess A B
  | [], [] => by simp [lexCompare, LexLess]
  | [], _ :: _ => by simp [lexCompare, LexLess]
  | _ :: _, [] => by simp [lexCompare, LexLess]
  | a :: as, b :: bs => by
    have ih := lexCompare_lt_iff (A := as) (B := bs)
    rw [lexLess_cons]
    simp only [lexCompare]
    by_cases h1 : a.toNat < b.toNat
    · simp [h1]
    · by_cases h2 : b.toNat < a.toNat
      · have : a ≠ b := fun h => by subst h; omega
        simp [h1, h2, this]
      · have : a = b := BitVec.eq_of_toNat_eq (by omega)
        simp [this, ih]

theorem lexCompare_gt_iff {A B : List Byte} : lexCompare A B = .gt ↔ LexLess B A := by
  rw [← lexCompare_lt_iff, ← lexCompare_swap A B]
  cases lexCompare A B <;> simp

/-- On arrays of one length the order is that of the big-endian values (R170). -/
theorem lexLess_iff_bigEndian_lt : ∀ {A B : List Byte}, A.length = B.length →
    (LexLess A B ↔ bigEndian A < bigEndian B)
  | [], [], _ => by simp [LexLess]
  | a :: as, b :: bs, hl => by
    have hl' : as.length = bs.length := by simpa using hl
    have ih := lexLess_iff_bigEndian_lt hl'
    have ha := bigEndian_lt as
    have hb := bigEndian_lt bs
    rw [lexLess_cons, ih]
    simp only [bigEndian, hl'] at ha ⊢
    set p := 256 ^ bs.length
    rcases Nat.lt_trichotomy a.toNat b.toNat with h | h | h
    · have : (a.toNat + 1) * p ≤ b.toNat * p := Nat.mul_le_mul_right _ h
      simp only [h, true_or, true_iff]
      rw [Nat.add_mul] at this
      omega
    · simp [BitVec.eq_of_toNat_eq h]
    · have : (b.toNat + 1) * p ≤ a.toNat * p := Nat.mul_le_mul_right _ h
      rw [Nat.add_mul] at this
      have hne : a ≠ b := fun e => by subst e; omega
      simp only [hne, false_and, or_false]
      omega

/-- The characters of two lists of groups of one length compare as the numerals do (R172). -/
theorem lexLess_map_encodeChar : ∀ {us vs : List Group}, us.length = vs.length →
    (LexLess (us.map encodeChar) (vs.map encodeChar) ↔
      base32Value (us.map BitVec.toNat) < base32Value (vs.map BitVec.toNat))
  | [], [], _ => by simp [LexLess]
  | u :: us, v :: vs, hl => by
    have hl' : us.length = vs.length := by simpa using hl
    have ih := lexLess_map_encodeChar hl'
    have lt32 : ∀ ws : List Group, ∀ x ∈ ws.map BitVec.toNat, x < 32 := by
      intro ws x hx
      obtain ⟨g, -, rfl⟩ := List.mem_map.1 hx
      exact g.isLt
    have ha := base32Value_lt (lt32 us)
    have hb := base32Value_lt (lt32 vs)
    simp only [List.map_cons, lexLess_cons, ih, encodeChar_lt_iff, base32Value, List.length_map,
      hl'] at ha hb ⊢
    set p := 32 ^ vs.length
    rcases Nat.lt_trichotomy u.toNat v.toNat with h | h | h
    · have : (u.toNat + 1) * p ≤ v.toNat * p := Nat.mul_le_mul_right _ h
      simp only [h, true_or, true_iff]
      rw [Nat.add_mul] at this
      omega
    · simp [BitVec.eq_of_toNat_eq h]
    · have : (v.toNat + 1) * p ≤ u.toNat * p := Nat.mul_le_mul_right _ h
      rw [Nat.add_mul] at this
      have hne : encodeChar u ≠ encodeChar v := fun e => by
        have := encodeChar_strictMono v u h
        rw [e] at this
        omega
      simp only [hne, false_and, or_false]
      omega

/-- Strings order as identifiers do (R170). -/
theorem lexLess_encodeIdentifier (a b : Vector Byte 16) :
    LexLess (encodeIdentifier a).toList (encodeIdentifier b).toList ↔
      bigEndian a.toList < bigEndian b.toList := by
  rw [encodeIdentifier_eq, encodeIdentifier_eq, toList_mapLanes, toList_mapLanes,
    lexLess_map_encodeChar (by simp)]
  exact Eq.to_iff (by rw [← base32Value_packIdentifier, ← base32Value_packIdentifier]; rfl)

end Sys2Proof.Machine
end

