-- ==== Sys2Proof/Laws/PerInstr.lean ====
section
/-! SUPPORT. The statements made for every command as a term: its word is the opcode of its row of
spec/opcode_table.json and selects it alone (spec/30_encoding.md R71). -/

namespace Sys2Proof.Laws.Opcode

/-- The command is well formed, its word is one of 0x01 to 0x0B, and the decoder and the table word
give it back. -/
def Statement (i : Instr) : Prop :=
  i.wf = true ∧ 0x01 ≤ (encode i).toNat ∧ (encode i).toNat ≤ 0x0B ∧
    decodeTableWord 8 (encode i).toNat = some i

theorem encTs : Statement .encTs := by simp only [Statement]; decide
theorem encRand : Statement .encRand := by simp only [Statement]; decide
theorem enc : Statement .enc := by simp only [Statement]; decide
theorem decTs : Statement .decTs := by simp only [Statement]; decide
theorem decRand : Statement .decRand := by simp only [Statement]; decide
theorem dec : Statement .dec := by simp only [Statement]; decide
theorem tsPack : Statement .tsPack := by simp only [Statement]; decide
theorem tsUnpack : Statement .tsUnpack := by simp only [Statement]; decide
theorem intToBytes : Statement .intToBytes := by simp only [Statement]; decide
theorem bytesToInt : Statement .bytesToInt := by simp only [Statement]; decide
theorem cmp : Statement .cmp := by simp only [Statement]; decide

end Sys2Proof.Laws.Opcode
end

