-- ==== Sys2Proof/Tests/Slice0.lean ====
section
/-! SUPPORT. Tests and witnesses.  The expected results are those of spec/95_test_vectors.md, the
vector named in each comment; each theorem is about one step or one decoding.  The witnesses show,
for every statement with hypotheses, a state and operands that meet them together. -/

namespace Sys2Proof.Tests

open Sys2Proof.Machine

/-! ### Helpers -/

/-- The idle state with `IN_LEN` and the first lanes of `IN` set. -/
def input (len : Byte) (bs : List Byte) : State :=
  { State.reset with inLen := len, inp := Vector.ofFn fun i => bs.getD i.val 0x00 }

/-- The codes of a string. -/
def codes (s : String) : List Byte := s.toList.map charCode

/-- The example identifier `X` of spec/95_test_vectors.md. -/
def X : List Byte :=
  [0x01, 0x56, 0x3D, 0xF3, 0x64, 0x81, 0xD6, 0x76, 0x4C, 0x61, 0xEF, 0xB9, 0x93, 0x02, 0xBD, 0x5B]

/-- `X` as a value of `ID`. -/
def idX : Vector Byte 16 := Vector.ofFn fun i => X.getD i.val 0x00

/-- A state after one step, tested. -/
def leaves (r : Result State) (p : State → Bool) : Bool :=
  match r with
  | .next t => p t
  | .fault _ => false
  | .refused _ => false

/-- The fault an outcome stops with, if it does. -/
def faultOf (r : Result State) : Option Fault :=
  match r with
  | .next _ => none
  | .fault f => some f
  | .refused _ => none

/-- The refusal an outcome stops with, if it does. -/
def refusalOf (r : Result State) : Option Refusal :=
  match r with
  | .next _ => none
  | .fault _ => none
  | .refused x => some x

/-- Run one command word from a state with its inputs loaded. -/
def run (s : State) (w : Nat) (p : State → Bool) : Bool := leaves (step (s.withFetchWord 8 w)) p

/-- Success with lanes: `ST` 01, `OL`, `OUT`, every other output 0. -/
def okLanes (l : List Byte) (t : State) : Bool :=
  t.status == 0x01 && t.errInfo == 0x00 && t.outLen.toNat == l.length &&
    t.out.toList == l ++ List.replicate (26 - l.length) 0x00 && t.wordOut == 0 && t.cmpOut == 0x00

/-- Success with a word. -/
def okWord (w : Word128) (t : State) : Bool :=
  t.status == 0x01 && t.errInfo == 0x00 && t.outLen == 0x00 &&
    t.out.toList == List.replicate 26 0x00 && t.wordOut == w && t.cmpOut == 0x00

/-- Success with a relation. -/
def okRel (r : Byte) (t : State) : Bool :=
  t.status == 0x01 && t.errInfo == 0x00 && t.outLen == 0x00 &&
    t.out.toList == List.replicate 26 0x00 && t.wordOut == 0 && t.cmpOut == r

/-- An error row: `ST`, `EI`, every output 0. -/
def errRow (st ei : Byte) (t : State) : Bool :=
  t.status == st && t.errInfo == ei && t.outLen == 0x00 &&
    t.out.toList == List.replicate 26 0x00 && t.wordOut == 0 && t.cmpOut == 0x00

/-! ### Decoding (R71), each word written bit by bit -/

theorem test_decode_encTs : decodeTableWord 8 0b00000001 = some .encTs := by decide
theorem test_decode_encRand : decodeTableWord 8 0b00000010 = some .encRand := by decide
theorem test_decode_enc : decodeTableWord 8 0b00000011 = some .enc := by decide
theorem test_decode_decTs : decodeTableWord 8 0b00000100 = some .decTs := by decide
theorem test_decode_decRand : decodeTableWord 8 0b00000101 = some .decRand := by decide
theorem test_decode_dec : decodeTableWord 8 0b00000110 = some .dec := by decide
theorem test_decode_tsPack : decodeTableWord 8 0b00000111 = some .tsPack := by decide
theorem test_decode_tsUnpack : decodeTableWord 8 0b00001000 = some .tsUnpack := by decide
theorem test_decode_intToBytes : decodeTableWord 8 0b00001001 = some .intToBytes := by decide
theorem test_decode_bytesToInt : decodeTableWord 8 0b00001010 = some .bytesToInt := by decide
theorem test_decode_cmp : decodeTableWord 8 0b00001011 = some .cmp := by decide

/-- R74: 0x00, 0x0C and 0xFF are reserved; a word of another length is none. -/
theorem test_decode_reserved : decodeTableWord 8 0x00 = none ∧ decodeTableWord 8 0x0C = none ∧
    decodeTableWord 8 0xFF = none ∧ decodeTableWord 16 0x01 = none := by decide

/-- No two rows of the opcode map select one word. -/
theorem test_opcodeMap_no_overlap : opcodeMap.Pairwise fun a b =>
    a.pattern &&& b.mask ≠ b.pattern &&& a.mask := by decide

/-! ### Well-formedness: each check refuses an ill-formed term -/

theorem test_wf_refuses_wide_8 : HostAction.wf (.wide 0x00 8) = false := by decide
theorem test_wf_refuses_basic : HostStmt.wf (.basic (.wide 0x00 8)) = false := by decide
theorem test_wf_refuses_long_string :
    HostStmt.wf (.ldinString (List.replicate 27 'A')) = false := by decide
theorem test_wf_refuses_non_ascii : HostStmt.wf (.ldinString [Char.ofNat 0xE9]) = false := by decide
theorem test_wf_refuses_long_bytes :
    HostStmt.wf (.ldinBytes (List.replicate 27 0x00)) = false := by decide
theorem test_wf_refuses_short_id : HostStmt.wf (.ldid (List.replicate 15 0x00)) = false := by decide
theorem test_wf_refuses_ldts_large : HostStmt.wf (.ldts (2 ^ 63)) = false := by decide
theorem test_wf_refuses_ldts_small : HostStmt.wf (.ldts (-2 ^ 63 - 1)) = false := by decide
theorem test_wf_refuses_ldint_large : HostStmt.wf (.ldint (2 ^ 128)) = false := by decide
theorem test_wf_refuses_rdout_27 : HostStmt.wf (.rdout 27 "s") = false := by decide

/-! ### Commands -/

/-- V-E1 -/
theorem test_encTs_vector :
    run (input 6 (X.take 6)) 0x01 (okLanes (codes "01ARYZ6S41")) = true := by decide
/-- V-E8: bit 47 is bit 2 of group 0. -/
theorem test_encTs_top_bit : run (input 6 [0x80]) 0x01 (okLanes (codes "4000000000")) = true := by
  decide
/-- V-E2 -/
theorem test_encRand_vector :
    run (input 10 (X.drop 6)) 0x02 (okLanes (codes "TSV4RRFFQ69G5FAV")) = true := by decide
/-- V-E10: bit 79 is bit 4 of group 0. -/
theorem test_encRand_top_bit :
    run (input 10 [0x80]) 0x02 (okLanes (codes "G000000000000000")) = true := by decide
/-- V-E3 -/
theorem test_enc_vector :
    run (input 16 X) 0x03 (okLanes (codes "01ARYZ6S41TSV4RRFFQ69G5FAV")) = true := by decide
/-- V-E14: every byte boundary. -/
theorem test_enc_boundaries :
    run (input 16 [0x00, 0x01, 0x02, 0x03, 0x04, 0x05, 0x06, 0x07, 0x08, 0x09, 0x0A, 0x0B, 0x0C,
      0x0D, 0x0E, 0x0F]) 0x03 (okLanes (codes "00041061050R3GG28A1C60T3GF")) = true := by decide
/-- V-D1 -/
theorem test_decTs_vector :
    run (input 10 (codes "01ARYZ6S41")) 0x04 (okLanes (X.take 6)) = true := by decide
/-- V-D7: the overflow at lane 0 comes before lane 1. -/
theorem test_decTs_overflow :
    run (input 10 (codes "8!ZZZZZZZZ")) 0x04 (errRow 0x0D 0x80) = true := by decide
/-- V-D13: randomness has no overflow check. -/
theorem test_decRand_no_overflow : run (input 16 (codes "8ZZZZZZZZZZZZZZZ")) 0x05
    (okLanes (0x47 :: List.replicate 9 0xFF)) = true := by decide
/-- V-D15 -/
theorem test_decRand_bad_lane :
    run (input 16 (codes "TSV4RRFFQ69G5FAU")) 0x05 (errRow 0x0D 0x0F) = true := by decide
/-- V-D17 -/
theorem test_dec_vector :
    run (input 26 (codes "01ARYZ6S41TSV4RRFFQ69G5FAV")) 0x06 (okLanes X) = true := by decide
/-- V-D20: two failures, the lowest lane is reported. -/
theorem test_dec_lowest_lane :
    run (input 26 (codes "0000000000O00000000000000I")) 0x06 (errRow 0x0D 0x0A) = true := by decide
/-- V-O1 -/
theorem test_tsPack_vector : run { input 10 (X.drop 6) with tsIn := BitVec.ofNat 64 1469918176385 }
    0x07 (okLanes X) = true := by decide
/-- V-O4: the length before the range. -/
theorem test_tsPack_length_first :
    run { input 9 X with tsIn := BitVec.ofInt 64 (-1) } 0x07 (errRow 0x09 0x00) = true := by decide
/-- V-O5 -/
theorem test_tsUnpack_vector : run (input 16 X) 0x08 (okWord 0x1563DF36481) = true := by decide
/-- V-O7: the whole identifier is needed. -/
theorem test_tsUnpack_length : run (input 6 X) 0x08 (errRow 0x09 0x00) = true := by decide
/-- V-O12, with V-O11's `IN_LEN`. -/
theorem test_intToBytes_vector :
    run { input 200 [] with intIn := 0x01563DF36481D6764C61EFB99302BD5B } 0x09 (okLanes X)
      = true := by decide
/-- V-O8 -/
theorem test_bytesToInt_vector :
    run (input 16 X) 0x0A (okWord 0x01563DF36481D6764C61EFB99302BD5B) = true := by decide
/-- S5 -/
theorem test_bytesToInt_length : run (input 15 X) 0x0A (errRow 0x09 0x00) = true := by decide
/-- V-O16: a proper prefix is less. -/
theorem test_cmp_prefix :
    run { input 15 X with ident := idX } 0x0B (okRel 0x03) = true := by decide
/-- V-O20: bytes are unsigned. -/
theorem test_cmp_unsigned : run { input 1 [0x7F] with ident := State.reset.ident.set 0 0x80 }
    0x0B (okRel 0x03) = true := by decide
/-- V-X3: the illegal command before the length. -/
theorem test_illegal_command : run (input 6 X) 0xFF (errRow 0x05 0x00) = true := by decide
/-- V-X1: a `START` straight after reset. -/
theorem test_start_after_reset :
    leaves (step { State.reset with status := 0x02 }) (errRow 0x05 0x00) = true := by decide

/-! ### Host accesses -/

/-- P3's byte order of `INT_IN`: offset 0x1F is the least significant byte. -/
theorem test_write_intIn_low :
    leaves (step { State.reset with host := [.wrb 0x1F 0x5C] }) (fun t => t.intIn == 0x5C) = true := by
  decide
/-- V-X12: a write to `STATUS` is ignored. -/
theorem test_write_status_ignored :
    leaves (step { State.reset with host := [.wrb 0x03 0x55] }) (fun t => t.status == 0x00) = true := by
  decide
/-- V-X8: `STATUS` reads 0x02 between `START` and completion. -/
theorem test_read_status_busy : leaves (step { State.reset with
    host := [.rdb 0x03 ⟨"s", 0⟩], status := 0x02, wait := 1 })
    (fun t => t.var ⟨"s", 0⟩ == some 0x02) = true := by decide
/-- P5: a write of `IN_LEN` while busy. -/
theorem test_write_while_busy_faults :
    faultOf (step { State.reset with host := [.wrb 0x01 0x0A], status := 0x02, wait := 1 })
      = some (.hostWriteWhileBusy 0x01) := by decide
/-- R54: a 16-bit access. -/
theorem test_wide_access_refused :
    refusalOf (step { State.reset with host := [.wide 0x00 16] }) = some (.wideAccess 0x00 16) := by
  decide
/-- R51: a reserved offset takes a write, even while busy. -/
theorem test_write_reserved_busy : leaves (step { State.reset with
    host := [.wrb 0x3A 0xFF], status := 0x02, wait := 1 })
    (fun t => t.status == 0x02 && t.host == []) = true := by decide

/-- P1's last lines as R79 writes them. -/
theorem test_program_text : programText [.command .dec] =
    some ["W 00=06".toList, "W 02=01".toList, "R 03+".toList] := by decide
/-- P2's first line: `LDTS` writes big-endian. -/
theorem test_ldts_expands : (HostStmt.ldts 1469918176385).expand =
    [.wrb 0x08 0x00, .wrb 0x09 0x00, .wrb 0x0A 0x01, .wrb 0x0B 0x56, .wrb 0x0C 0x3D,
     .wrb 0x0D 0xF3, .wrb 0x0E 0x64, .wrb 0x0F 0x81] := by decide

/-! ### Witnesses for the hypotheses of the statements -/

/-- A busy state in which the host moves next. -/
def busyHost (a : HostAction) : State :=
  { State.reset with host := [a], status := 0x02, wait := 1 }

/-- An idle state with one host action to do. -/
def idleHost (a : HostAction) : State := { State.reset with host := [a] }

/-- A busy state in which the unit moves next. -/
def unitNext (c : Byte) : State := { State.reset with cmd := c, status := 0x02 }

theorem busyHost_moves (a : HostAction) : (busyHost a).hostMoves a [] := by
  constructor <;> simp [busyHost, State.unitTurn]

theorem idleHost_moves (a : HostAction) : (idleHost a).hostMoves a [] := by
  constructor <;> simp [idleHost, State.unitTurn, State.busy, State.reset]

theorem busyHost_busy (a : HostAction) : (busyHost a).busy = true := by
  simp [busyHost, State.busy]

theorem idleHost_busy (a : HostAction) : (idleHost a).busy = false := by
  simp [idleHost, State.busy, State.reset]

/-- A command completes: the next state it answers. -/
theorem exec_answers (i : Instr) (s : State) : ∃ t, exec i s = .next t := by
  obtain ⟨_, _, _, _, _, h⟩ := exec_next i s
  exact ⟨_, h⟩

theorem witness_DecodeEncodeAgree : Instr.enc.wf = true ∧ decode 0x03 = .ok .enc := by
  constructor <;> rfl

theorem witness_EncodeRomHoldsAlphabet : (0 : Group).toNat < (31 : Group).toNat := by decide

/-- The clauses of the ROM at their edges: `0`, `Z`, `I`, 0x7F and 0x80. -/
theorem witness_DecodeRomInvertsEncodeRom : lookup 0x30 = some 0 ∧ lookup 0x5A = some 31 ∧
    lookup 0x49 = none ∧ lookup 0x7F = none ∧ lookup 0x80 = none ∧
    (0x30 : Byte) = encodeChar 0 ∧ (0x49 : Byte) ∉ encodeRom.toList ∧
    (0x7F : Byte).toNat < 128 := by decide

theorem witness_ResetInputClearsEveryRegister :
    (idleHost .assertReset).hostMoves .assertReset [] ∧
      (busyHost .assertReset).hostMoves .assertReset [] :=
  ⟨idleHost_moves _, busyHost_moves _⟩

/-- A length that is right and the two next to it. -/
theorem witness_EncTsWritesTimestampCharacters : (input 6 X).inLen = 6 ∧ (input 5 X).inLen ≠ 6 ∧
    (input 7 X).inLen ≠ 6 := by decide
theorem witness_EncRandWritesRandomnessDigits : (input 10 X).inLen = 10 ∧
    (input 9 X).inLen ≠ 10 ∧ (input 11 X).inLen ≠ 10 := by decide
theorem witness_EncWritesBothParts : (input 16 X).inLen = 16 ∧ (input 15 X).inLen ≠ 16 ∧
    (input 17 X).inLen ≠ 16 := by decide
theorem witness_EncodersWriteWholeValueNumeral : (input 6 X).inLen = 6 ∧
    (input 16 X).inLen = 16 := by decide

theorem witness_EncodersWriteAlphabetOnly : ∃ t, exec .enc (input 16 X) = .next t ∧
    (25 : Fin 26).val < t.outLen.toNat := ⟨_, rfl, by decide⟩

/-- The values of the string that holds `"0"` in every lane, and of `"7ZZ…Z"`. -/
theorem witness_spells_zero : (input 26 (List.replicate 26 0x30)).Spells 26 (fun _ => 0) := by
  unfold State.Spells
  decide
theorem witness_spells_max : (input 26 (0x37 :: List.replicate 25 0x5A)).Spells 26
    (fun k => if k = 0 then 7 else 31) := by
  unfold State.Spells
  decide

theorem witness_DecTsUnpacksOrReports :
    (input 10 (0x37 :: List.replicate 9 0x5A)).Spells 10 (fun k => if k = 0 then 7 else 31) ∧
      (input 10 (codes "!8ZZZZZZZZ")).BadLane 10 0 ∧
      ¬ (input 10 (codes "!8ZZZZZZZZ")).FirstOverflows ∧
      (input 10 (codes "000000000I")).BadLane 10 9 ∧
      ¬ (input 10 (codes "000000000I")).FirstOverflows ∧
      (input 10 (codes "8ZZZZZZZZZ")).FirstOverflows ∧
      (input 10 (codes "ZZZZZZZZZZ")).FirstOverflows ∧ (input 9 []).inLen ≠ 10 := by
  unfold State.Spells State.BadLane State.FirstOverflows
  decide

theorem witness_DecRandUnpacksOrReports :
    (input 16 (List.replicate 16 0x5A)).Spells 16 (fun _ => 31) ∧
      (input 16 (codes "I000000000000000")).BadLane 16 0 ∧
      (input 16 (codes "000000000000000U")).BadLane 16 15 ∧ (input 15 []).inLen ≠ 16 := by
  unfold State.Spells State.BadLane
  decide

theorem witness_DecUnpacksOrReports :
    (input 26 (0x37 :: List.replicate 25 0x5A)).Spells 26 (fun k => if k = 0 then 7 else 31) ∧
      (input 26 (codes "O0000000000000000000000000")).BadLane 26 0 ∧
      ¬ (input 26 (codes "O0000000000000000000000000")).FirstOverflows ∧
      (input 26 (codes "0000000000000000000000000L")).BadLane 26 25 ∧
      ¬ (input 26 (codes "0000000000000000000000000L")).FirstOverflows ∧
      (input 26 (codes "800000000000000000000000U0")).FirstOverflows ∧
      (input 25 []).inLen ≠ 26 := by
  unfold State.Spells State.BadLane State.FirstOverflows
  decide

theorem witness_DecodersReadWholeValueNumeral :
    (input 10 (List.replicate 10 0x30)).Spells 10 (fun _ => 0) ∧
      (input 16 (List.replicate 16 0x30)).Spells 16 (fun _ => 0) ∧
      (input 26 (List.replicate 26 0x30)).Spells 26 (fun _ => 0) := by
  unfold State.Spells
  decide

/-- One state accepted by each decode command. -/
theorem witness_DecodersAcceptExactly :
    run (input 10 (codes "7ZZZZZZZZZ")) 0x04 (fun t => t.status == 0x01) = true ∧
      run (input 16 (codes "ZZZZZZZZZZZZZZZZ")) 0x05 (fun t => t.status == 0x01) = true ∧
      run (input 26 (codes "00000000000000000000000000")) 0x06 (fun t => t.status == 0x01)
        = true := by decide

theorem witness_DecodeAfterEncodeGivesBytes :
    (∃ t u : State, exec .encTs (input 6 X) = .next t ∧ u.inLen = 10 ∧
      u.inList 10 = t.out.toList.take 10) ∧
    (∃ t u : State, exec .encRand (input 10 X) = .next t ∧ u.inLen = 16 ∧
      u.inList 16 = t.out.toList.take 16) ∧
    ∃ t u : State, exec .enc (input 16 X) = .next t ∧ u.inLen = 26 ∧
      u.inList 26 = t.out.toList := by
  obtain ⟨t1, h1⟩ := exec_answers .encTs (input 6 X)
  obtain ⟨t2, h2⟩ := exec_answers .encRand (input 10 X)
  obtain ⟨t3, h3⟩ := exec_answers .enc (input 16 X)
  exact ⟨⟨t1, { t1 with inLen := 10, inp := t1.out }, h1, rfl, rfl⟩,
    ⟨t2, { t2 with inLen := 16, inp := t2.out }, h2, rfl, rfl⟩,
    ⟨t3, { t3 with inLen := 26, inp := t3.out }, h3, rfl, List.take_of_length_le (by simp)⟩⟩

theorem witness_EncodeAfterDecodeGivesCharacters :
    (∃ t u : State, exec .decTs (input 10 (codes "01ARYZ6S41")) = .next t ∧ t.status = 0x01 ∧
      u.inLen = 6 ∧ u.inList 6 = t.out.toList.take 6) ∧
    (∃ t u : State, exec .decRand (input 16 (codes "TSV4RRFFQ69G5FAV")) = .next t ∧ t.status = 0x01 ∧
      u.inLen = 10 ∧ u.inList 10 = t.out.toList.take 10) ∧
    ∃ t u : State, exec .dec (input 26 (codes "01ARYZ6S41TSV4RRFFQ69G5FAV")) = .next t ∧
      t.status = 0x01 ∧ u.inLen = 16 ∧ u.inList 16 = t.out.toList.take 16 := by
  have ok : ∀ (i : Instr) (s : State), leaves (exec i s) (fun t => t.status == 0x01) = true →
      ∃ t, exec i s = .next t ∧ t.status = 0x01 := by
    intro i s h
    obtain ⟨t, ht⟩ := exec_answers i s
    rw [ht] at h
    exact ⟨t, ht, by simpa [leaves] using h⟩
  obtain ⟨t1, h1, g1⟩ := ok .decTs (input 10 (codes "01ARYZ6S41")) (by decide)
  obtain ⟨t2, h2, g2⟩ := ok .decRand (input 16 (codes "TSV4RRFFQ69G5FAV")) (by decide)
  obtain ⟨t3, h3, g3⟩ := ok .dec (input 26 (codes "01ARYZ6S41TSV4RRFFQ69G5FAV")) (by decide)
  exact ⟨⟨t1, { t1 with inLen := 6, inp := t1.out }, h1, g1, rfl, rfl⟩,
    ⟨t2, { t2 with inLen := 10, inp := t2.out }, h2, g2, rfl, rfl⟩,
    ⟨t3, { t3 with inLen := 16, inp := t3.out }, h3, g3, rfl, rfl⟩⟩

/-- S4: the edges of the 48-bit range, and both signs of 64 bits. -/
theorem witness_TsPackPlacesTimestamp :
    (0 ≤ (BitVec.ofNat 64 (2 ^ 48 - 1)).toInt ∧ (BitVec.ofNat 64 (2 ^ 48 - 1)).toInt < 2 ^ 48) ∧
      0 ≤ (0 : Word64).toInt ∧ 2 ^ 48 ≤ (BitVec.ofNat 64 (2 ^ 48)).toInt ∧
      (BitVec.ofInt 64 (-1)).toInt < 0 ∧ (BitVec.ofNat 64 (2 ^ 63)).toInt < 0 ∧
      (input 10 X).inLen = 10 ∧ (input 9 X).inLen ≠ 10 := by decide

theorem witness_TsUnpackReadsTimestamp : (input 16 X).inLen = 16 ∧ (input 6 X).inLen ≠ 16 := by
  decide
theorem witness_BytesToIntReadsBigEndian : (input 16 X).inLen = 16 ∧ (input 17 X).inLen ≠ 16 := by
  decide

/-- The length bound of `CMP`, and one pair for each relation. -/
theorem witness_CmpComparesLexicographically :
    26 < (input 27 []).inLen.toNat ∧ 26 < (input 255 []).inLen.toNat ∧
      (input 26 []).inLen.toNat ≤ 26 ∧ (input 0 []).inLen.toNat ≤ 26 ∧
      lexCompare X (X ++ [0x00]) = .lt ∧ lexCompare X X = .eq ∧ lexCompare X [] = .gt := by decide

theorem witness_OrdersAgree : ∃ t u : State, exec .enc (input 16 []) = .next t ∧
    exec .enc (input 16 X) = .next u ∧ (input 16 []).inLen = 16 ∧ (input 16 X).inLen = 16 := by
  obtain ⟨t, h⟩ := exec_answers .enc (input 16 [])
  obtain ⟨u, g⟩ := exec_answers .enc (input 16 X)
  exact ⟨t, u, h, g, rfl, rfl⟩

theorem witness_CmpAgreesWithInteger : ∃ t u : State, exec .intToBytes (input 0 []) = .next t ∧
    u.inLen = 16 ∧ u.inList 16 = t.out.toList.take 16 := by
  obtain ⟨t, h⟩ := exec_answers .intToBytes (input 0 [])
  exact ⟨t, { t with inLen := 16, inp := t.out }, h, rfl, rfl⟩

theorem witness_TimestampDominatesOrder : ∃ t u : State,
    exec .tsPack (input 10 X) = .next t ∧ t.status = 0x01 ∧
      exec .tsPack { input 10 X with tsIn := 1 } = .next u ∧ u.status = 0x01 ∧
      (input 10 X).tsIn.toInt < (1 : Word64).toInt := ⟨_, _, rfl, rfl, rfl, rfl, by decide⟩

theorem witness_ByteOrderRoundTrips :
    (∃ t u : State, exec .bytesToInt (input 16 X) = .next t ∧ u.intIn = t.wordOut) ∧
    (∃ t u : State, exec .intToBytes (input 16 X) = .next t ∧ u.inLen = 16 ∧
      u.inList 16 = t.out.toList.take 16) ∧
    (∃ t u : State, exec .tsPack (input 10 X) = .next t ∧ t.status = 0x01 ∧ u.inLen = 16 ∧
      u.inList 16 = t.out.toList.take 16) ∧
    ∃ t u : State, exec .tsUnpack (input 16 X) = .next t ∧ u.inLen = 10 ∧
      u.tsIn = t.wordOut.setWidth 64 ∧ u.inList 10 = ((input 16 X).inList 16).drop 6 := by
  obtain ⟨t1, h1⟩ := exec_answers .bytesToInt (input 16 X)
  obtain ⟨t2, h2⟩ := exec_answers .intToBytes (input 16 X)
  obtain ⟨t4, h4⟩ := exec_answers .tsUnpack (input 16 X)
  refine ⟨⟨t1, { t1 with intIn := t1.wordOut }, h1, rfl⟩,
    ⟨t2, { t2 with inLen := 16, inp := t2.out }, h2, rfl, rfl⟩, ?_,
    ⟨t4, { input 10 (X.drop 6) with tsIn := t4.wordOut.setWidth 64 }, h4, rfl, rfl,
      show (input 10 (X.drop 6)).inList 10 = ((input 16 X).inList 16).drop 6 by decide⟩⟩
  exact ⟨_, { input 16 [] with inp := Vector.ofFn fun i =>
    ((List.replicate 6 0x00) ++ X.take 10).getD i.val 0x00 }, rfl, rfl, rfl, by decide⟩

/-- The edges of the reserved values. -/
theorem witness_ReservedCommandReportsIllegal : (unitNext 0x00).unitTurn = true ∧
    (unitNext 0x0C).unitTurn = true ∧ 0x0C ≤ (0x0C : Byte).toNat ∧
    (unitNext 0xFF).unitTurn = true ∧ 0x0C ≤ (0xFF : Byte).toNat := by decide

theorem witness_UnitStepCompletesCommand : (unitNext 0x01).unitTurn = true := by decide

theorem witness_ErrorsClearEveryOutput : ∃ t, exec .enc (input 15 X) = .next t ∧ t.err ≠ 0 :=
  ⟨_, rfl, by decide⟩

/-- Two states that differ in a lane at `IN_LEN`, in the other operands and in an output. -/
theorem witness_OutputsDependOnOperandsOnly :
    SameOperands .enc (input 16 X) { input 16 (X ++ [0xFF]) with outLen := 26, tsIn := 5 } ∧
      ∃ u w, exec .enc (input 16 X) = .next u ∧
        exec .enc { input 16 (X ++ [0xFF]) with outLen := 26, tsIn := 5 } = .next w := by
  refine ⟨⟨fun _ => by decide, nofun, nofun, nofun⟩, ?_⟩
  obtain ⟨u, h⟩ := exec_answers .enc (input 16 X)
  obtain ⟨w, g⟩ := exec_answers .enc { input 16 (X ++ [0xFF]) with outLen := 26, tsIn := 5 }
  exact ⟨u, w, h, g⟩

theorem witness_RepeatingCommandChangesNothing : ∃ t, exec .cmp (input 16 X) = .next t :=
  exec_answers _ _

theorem witness_StepRunsDecodedCommand :
    ((unitNext 0x0B).unitTurn = true ∧ decode (unitNext 0x0B).cmd = .ok .cmp) ∧
      (busyHost .wait).hostMoves .wait [] ∧
      State.reset.unitTurn = false ∧ State.reset.host = [] :=
  ⟨⟨by decide, rfl⟩, busyHost_moves _, by decide, rfl⟩

theorem reset_inv : State.reset.Inv := by constructor <;> decide

theorem idleHost_inv (a : HostAction) : (idleHost a).Inv :=
  ⟨reset_inv.1, reset_inv.2, reset_inv.3, reset_inv.4, reset_inv.5, reset_inv.6, reset_inv.7,
    reset_inv.8, reset_inv.9, reset_inv.10⟩

theorem witness_StepKeepsInvariant : ∃ s t : State, s.Inv ∧ step s = .next t ∧ t ≠ s :=
  ⟨idleHost (.wrb 0x00 0x03), _, idleHost_inv _, rfl, by decide⟩

/-- The fault clause at its edges: `CMD`, `CTRL`, the last lane of `ID`, `START`. -/
theorem witness_StopsExactlyOnHazards_fault :
    rwOffset 0x00 ∧ rwOffset 0x4F ∧
      faultOf (step (busyHost (.wrb 0x00 0x00))) = some (.hostWriteWhileBusy 0x00) ∧
      faultOf (step (busyHost (.wrb 0x02 0x00))) = some (.hostWriteWhileBusy 0x02) ∧
      faultOf (step (busyHost (.wrb 0x4F 0x00))) = some (.hostWriteWhileBusy 0x4F) ∧
      faultOf (step (busyHost .start)) = some (.hostWriteWhileBusy 0x02) := by
  unfold rwOffset
  decide

/-- The refusal clause at the widths on both sides of 8, and far above: each action is well formed
and is refused; one of 8 bits is not well formed. -/
theorem witness_StopsExactlyOnHazards_refusal :
    (∀ n ∈ [7, 9, 128], (∀ a rest, (idleHost (.wide 0x7F n)).hostMoves a rest → a.wf = true) ∧
      refusalOf (step (idleHost (.wide 0x7F n))) = some (.wideAccess 0x7F n)) ∧
      HostAction.wf (.wide 0x7F 8) = false := by
  refine ⟨fun n hn => ⟨fun a rest h => ?_, ?_⟩, by decide⟩
  · obtain rfl : HostAction.wide 0x7F n = a := (List.cons.inj h.2).1
    simp only [List.mem_cons, List.not_mem_nil, or_false] at hn
    rcases hn with rfl | rfl | rfl <;> rfl
  · rw [step_host (idleHost_moves _).1 (idleHost_moves _).2]
    rfl

/-- `BUSY` rises by a `START`, falls by the unit's step, and falls by a reset. -/
theorem witness_BusyChangesOnlyByHandshake :
    (∃ t, step (idleHost .start) = .next t ∧ (idleHost .start).busy = false ∧ t.busy = true) ∧
      leaves (step (unitNext 0x01)) (fun t => !t.busy) = true ∧
      leaves (step (busyHost .assertReset)) (fun t => !t.busy) = true := by
  refine ⟨⟨_, start_step (idleHost_busy _) rfl, idleHost_busy _, by simp⟩, by decide, by decide⟩

theorem witness_InputsFixedWhileBusy : ∃ t, (busyHost .wait).busy = true ∧
    step (busyHost .wait) = .next t ∧ ∀ rest, ¬ (busyHost .wait).hostMoves .assertReset rest :=
  ⟨_, busyHost_busy _, wait_poll (busyHost_busy _) (busyHost_moves _).1 rfl,
    fun _ h => by have := h.2; cases this⟩

theorem witness_OutputsStayUntilNextStart : ∃ t, (idleHost (.wrb 0x02 0x00)).hostMoves
    (.wrb 0x02 0x00) [] ∧ step (idleHost (.wrb 0x02 0x00)) = .next t ∧
    ¬ (HostAction.wrb 0x02 0x00).StartsCommand ∧ HostAction.wrb 0x02 0x00 ≠ .assertReset := by
  refine ⟨_, idleHost_moves _, rfl, ?_, by decide⟩
  rw [← starts_iff]
  decide

theorem witness_CtrlStartsCommand : (idleHost (.wrb 0x02 0xFF)).busy = false ∧
    (idleHost (.wrb 0x02 0xFE)).busy = false ∧ (0xFF : Byte).getLsbD 0 = true ∧
    (0xFE : Byte).getLsbD 0 = false := by decide

/-- Both ends of each RW range. -/
theorem witness_HostWriteStoresByte : (idleHost (.wrb 0x39 0x5A)).busy = false ∧
    rwOffset 0x00 ∧ rwOffset 0x01 ∧ rwOffset 0x08 ∧ rwOffset 0x39 ∧ rwOffset 0x40 ∧
    rwOffset 0x4F ∧ ¬ rwOffset 0x02 ∧ ¬ rwOffset 0x07 ∧ ¬ rwOffset 0x3A ∧ ¬ rwOffset 0x3F ∧
    ¬ rwOffset 0x50 := by
  unfold rwOffset
  decide

/-- Both ends of each reserved and RO range, and a move onto each kind, idle and busy. -/
theorem witness_ReservedAndReadOnlyWritesIgnored :
    (reservedOffset 0x07 ∧ reservedOffset 0x3A ∧ reservedOffset 0x3F ∧ reservedOffset 0x7A ∧
      reservedOffset 0x7F ∧ roOffset 0x03 ∧ roOffset 0x06 ∧ roOffset 0x50 ∧ roOffset 0x79 ∧
      ¬ roOffset 0x07 ∧ ¬ roOffset 0x4F ∧ ¬ reservedOffset 0x79) ∧
      (idleHost (.wrb 0x7F 0xFF)).hostMoves (.wrb 0x7F 0xFF) [] ∧
      (busyHost (.wrb 0x79 0xFF)).hostMoves (.wrb 0x79 0xFF) [] := by
  refine ⟨?_, idleHost_moves _, busyHost_moves _⟩
  unfold reservedOffset roOffset outputOffset
  decide

/-- A read while idle, and while busy of a place that is no output and of one that is. -/
theorem witness_HostReadHasNoSideEffect :
    (idleHost (.rdb 0x79 ⟨"x", 0⟩)).hostMoves (.rdb 0x79 ⟨"x", 0⟩) [] ∧
      (busyHost (.rdb 0x4F ⟨"x", 0⟩)).hostMoves (.rdb 0x4F ⟨"x", 0⟩) [] ∧
      ¬ outputOffset 0x4F ∧ ¬ outputOffset 0x03 ∧ ¬ outputOffset 0x07 ∧ outputOffset 0x04 ∧
      outputOffset 0x50 ∧ outputOffset 0x79 ∧ ¬ outputOffset 0x7A := by
  refine ⟨idleHost_moves _, busyHost_moves _, ?_⟩
  unfold outputOffset
  decide

theorem witness_WriteWhileBusyFaults : (busyHost (.wrb 0x01 0x0A)).busy = true ∧ rwOffset 0x01 ∧
    (busyHost (.wrb 0x01 0x0A)).hostMoves (.wrb 0x01 0x0A) [] :=
  ⟨busyHost_busy _, .inl (by decide), busyHost_moves _⟩

theorem witness_WaitEndsAfterLatency : (busyHost .wait).busy = true ∧
    (busyHost .wait).host = .wait :: [] := ⟨busyHost_busy _, rfl⟩

theorem witness_CommandStatementRunsCommand :
    (State.reset.loadProgram [.command .enc]).busy = false ∧
      (State.reset.loadProgram [.command .enc]).host = (HostStmt.command .enc).expand ++ [] :=
  ⟨by decide, by decide⟩

/-- `LDIN` with no lane, with all 26, and of a string; `LDLEN`. -/
theorem witness_LdinLoadsLanes :
    (State.reset.loadProgram [.ldinBytes []]).host = (HostStmt.ldinBytes []).expand ++ [] ∧
      HostStmt.wf (.ldinBytes []) = true ∧
      HostStmt.wf (.ldinBytes (List.replicate 26 0xFF)) = true ∧
      HostStmt.wf (.ldinString "01ARYZ6S41TSV4RRFFQ69G5FAV".toList) = true ∧
      (State.reset.loadProgram [.ldlen 255]).host = (HostStmt.ldlen 255).expand ++ [] ∧
      (State.reset.loadProgram [.ldlen 255]).busy = false := by decide

/-- The ends of the ranges of `LDTS` and `LDINT`, and an `LDID`. -/
theorem witness_OperandStatementsLoadRegisters :
    HostStmt.wf (.ldid X) = true ∧ HostStmt.wf (.ldts (-2 ^ 63)) = true ∧
      HostStmt.wf (.ldts (2 ^ 63 - 1)) = true ∧ HostStmt.wf (.ldint 0) = true ∧
      HostStmt.wf (.ldint (2 ^ 128 - 1)) = true ∧
      (State.reset.loadProgram [.ldid X]).host = (HostStmt.ldid X).expand ++ [] := by decide

theorem witness_ResultStatementsReadOutputs : HostStmt.wf (.rdout 26 "s") = true ∧
    HostStmt.wf (.rdout 0 "s") = true ∧
    (State.reset.loadProgram [.rdword "t"]).host = (HostStmt.rdword "t").expand ++ [] := by decide

theorem witness_PresentedLengthStaysWrong : presentLength 26 = 26 ∧ presentLength 27 = 27 ∧
    presentLength 255 = 0xFF ∧ presentLength 256 = 0xFF ∧ presentLength 282 = 0xFF := by decide

/-- P3's statements are pseudo-instructions and well formed. -/
def programP3 : List HostStmt :=
  [.ldid X, .ldint 0x01563DF36481D6764C61EFB99302BD5C, .command .intToBytes, .rdout 16 "b",
   .ldinBytes (X.take 15 ++ [0x5C]), .command .cmp, .ldlen 15, .command .cmp,
   .ldinString "01aryz6s41".toList, .command .decTs]

theorem witness_StatementProgramsNeverStop : State.reset.busy = false ∧
    ∀ x ∈ programP3, x.Pseudo ∧ x.wf = true := by
  refine ⟨by simp, ?_⟩
  have h : ∀ x ∈ programP3, x.wf = true ∧ ∀ a, x ≠ .basic a := by
    simp [programP3, HostStmt.wf, Instr.wf, X]
  exact fun x hx => ⟨(h x hx).2, (h x hx).1⟩

theorem witness_StatementProgramsReachEnd : State.reset.busy = false ∧
    ∀ x ∈ programP3, x.Pseudo ∧ x.wf = true := witness_StatementProgramsNeverStop

end Sys2Proof.Tests
end

section
/-! PROOFS. The obligations about the registers and the ROMs (spec/10_state.md R24, R32, R41;
spec/41_decode.md R120), and the facts about the ROM's stored entries and about `CTRL` they rest on. -/

namespace Sys2Proof.Machine

/-! ### The `DECODE` ROM -/

/-- R120: a code from 0x80 up is outside the table. -/
theorem lookup_of_ge {c : Byte} (h : 0x80 ≤ c.toNat) : lookup c = none := by
  rw [lookup, dif_neg (by omega)]

/-- R120: below 0x80 the lookup fails exactly at the entries that hold the marker. -/
theorem lookup_eq_none_iff_decodeEntry {c : Byte} (h : c.toNat < 128) :
    lookup c = none ↔ decodeEntry c.toNat h = invalidMark := by
  rw [lookup, dif_pos h]
  split
  · next he => simp [he]
  · next he => simp [he]

theorem lookup_eq_none_iff_not_mem (c : Byte) : lookup c = none ↔ c ∉ encodeRom.toList := by
  rw [mem_encodeRom_iff, Bool.not_eq_true, Option.isSome_eq_false_iff, Option.isNone_iff_eq_none]

/-- R32: the entry stored at `ENCODE[g]` is `g`. -/
theorem decodeEntry_encodeChar : ∀ (g : Group) (h : (encodeChar g).toNat < 128),
    decodeEntry (encodeChar g).toNat h = g.setWidth 8 := by decide

/-- Settles O4: the accepted codes and the marker are read off `lookup`, the stored group off the
32 entries at `ENCODE[g]`. -/
theorem decodeRomInvertsEncodeRom : Obligations.DecodeRomInvertsEncodeRom := by
  refine ⟨fun c g => ?_, fun c => ?_, fun c h => ⟨?_, fun hc => ?_⟩⟩
  · rw [lookup_eq_some_iff, eq_comm]
  · rw [lookup_eq_none_iff_not_mem]
    exact ⟨.inr, fun hc => hc.elim
      (fun hge => (lookup_eq_none_iff_not_mem c).1 (lookup_of_ge hge)) id⟩
  · rintro g rfl
    exact decodeEntry_encodeChar g h
  · exact (lookup_eq_none_iff_decodeEntry h).1 ((lookup_eq_none_iff_not_mem c).2 hc)

/-! ### `CTRL` and reset -/

/-- R24: `CTRL` holds no state, so its byte of the window is 0x00. -/
@[simp] theorem window_ctrl (s : State) : s.window offCtrl = 0x00 := by
  simp only [State.window, locate_ctrl, State.readLoc]

/-- R24: a read of `CTRL` gives 0x00, idle or busy, and draws nothing. -/
@[simp] theorem hostRead_ctrl (s : State) : hostRead s offCtrl = (0x00, s) := by
  simp [hostRead, Loc.isOutput, State.readLoc]

/-- Settles O5: every field of `State.reset` is its register's reset value, and `CTRL`, which has no
field, reads 0x00 in every state. -/
theorem resetClearsEveryRegister : Obligations.ResetClearsEveryRegister := by
  have lane {n : Nat} (i : Fin n) : (Vector.replicate n (0x00 : Byte))[i] = 0x00 :=
    Vector.getElem_replicate i.isLt
  exact ⟨rfl, rfl, rfl, rfl, rfl, rfl, rfl, rfl, rfl, window_ctrl _, lane, lane, lane⟩

/-- R24, R259: an idle block starts its command on a `CTRL` write with bit 0 set and ignores the
other bits. -/
theorem ctrl_write_step {s : State} {v : Byte} {rest : List HostAction} (hb : s.busy = false)
    (hh : s.host = .wrb offCtrl v :: rest) :
    step s = .next (if v.getLsbD 0 then ({ s.tick with host := rest } : State).start
      else { s.tick with host := rest }) := by
  have hb' : ({ s.tick with host := rest } : State).busy = false := hb
  rw [step_host (unitTurn_of_idle hb) hh]
  simp only [hostStep, hostWrite, locate_ctrl, Loc.access, hb', Bool.false_eq_true, if_false]
  split <;> rfl

/-- Settles O40: `ctrl_write_step` gives the next state by bit 0 of the byte, and neither outcome
touches a register but `STATUS`. -/
theorem ctrlStartsCommand : Obligations.CtrlStartsCommand := by
  refine ⟨fun s v rest hb hh => ⟨_, ctrl_write_step hb hh, ?_⟩,
    fun s => congrArg Prod.fst (hostRead_ctrl s)⟩
  cases v.getLsbD 0 with
  | true => exact ⟨⟨rfl, rfl, rfl, rfl, rfl, rfl⟩, rfl, rfl, rfl, rfl, rfl, rfl⟩
  | false => exact ⟨⟨rfl, rfl, rfl, rfl, rfl, rfl⟩, rfl, rfl, rfl, rfl, rfl, rfl⟩

end Sys2Proof.Machine
end

section
/-! PROOFS. The obligations about the host's accesses (spec/20_memory.md R50 to R57;
spec/70_reset_and_hazards.md R264): what an ignored access leaves, the window image of a word
register, and the two ways a step stops. -/

namespace Sys2Proof.Machine

/-! ### Reads and writes without effect -/

/-- R51: a reserved place reads 0x00, idle or busy, and the read draws nothing. -/
theorem hostRead_reserved (s : State) {off : Offset} (h : locate off = .reserved) :
    hostRead s off = (0x00, s) := by
  simp [hostRead, h, Loc.isOutput, State.readLoc]

/-- R51: a write to a read-only or a reserved place is ignored, idle or busy. -/
theorem hostWrite_ignored (s : State) {off : Offset} (v : Byte)
    (h : (locate off).access = .reserved ∨ (locate off).access = .ro) :
    hostWrite s off v = .next s := by
  rcases h with h | h <;> simp only [hostWrite, h]

/-- Settles O42: a read of a place that holds nothing answers 0x00 and the state itself; an ignored
write uses up the host's action and one step of the latency, which are no registers. -/
theorem reservedAndReadOnlyWritesIgnored : Obligations.ReservedAndReadOnlyWritesIgnored := by
  refine ⟨fun s off hoff => ?_, fun s off v rest hoff hmove => ?_⟩
  · rcases hoff with hres | rfl
    · exact hostRead_reserved s ((locate_reserved_iff off).2 hres)
    · exact hostRead_ctrl s
  · obtain ⟨hturn, hhost⟩ := hmove
    have hacc := hoff.imp (access_reserved_iff off).2 (access_ro_iff off).2
    have hstep : step s = .next { s.tick with host := rest } :=
      (step_host hturn hhost).trans (hostWrite_ignored _ v hacc)
    exact ⟨_, hstep, ⟨rfl, rfl, rfl, rfl, rfl, rfl⟩, ⟨rfl, rfl, rfl, rfl, rfl, rfl⟩⟩

/-! ### The word registers -/

/-- R57: offsets that show the bytes of a word from the highest down show its big-endian form. -/
theorem map_window_eq_bigEndianBytes {s : State} {n : Nat} {off : Nat → Offset} (w : BitVec (8 * n))
    (h : ∀ k < n, s.window (off k) = getByte w (8 * (n - 1 - k))) :
    (List.range n).map (fun k => s.window (off k)) = (bigEndianBytes n w.toNat).toList := by
  refine List.ext_getElem (by simp) fun k hk _ => ?_
  have hk : k < n := by simpa using hk
  rw [List.getElem_map, List.getElem_range, Vector.getElem_toList, h k hk,
    getByte_eq_bigEndianBytes n w k hk rfl]

/-- Settles O44: each of the three registers shows its bytes from the highest down. -/
theorem wordRegistersAreBigEndian : Obligations.WordRegistersAreBigEndian := by
  intro s
  refine ⟨map_window_eq_bigEndianBytes (n := 8) (off := offTsIn) s.tsIn fun k hk => ?_,
    map_window_eq_bigEndianBytes (n := 16) (off := offIntIn) s.intIn fun k hk => ?_,
    map_window_eq_bigEndianBytes (n := 16) (off := offWordOut) s.wordOut fun k hk => ?_⟩
  · rw [window_tsIn s hk, show 8 * (8 - 1 - k) = 56 - 8 * k by omega]
  · rw [window_intIn s hk, show 8 * (16 - 1 - k) = 120 - 8 * k by omega]
  · rw [window_wordOut s hk, show 8 * (16 - 1 - k) = 120 - 8 * k by omega]

/-! ### The two ways a step stops -/

/-- A step that answers no next state is a step of the host: the unit always completes its command
(R260), and with no action left nothing happens. -/
theorem step_stops_iff {s : State} {o : Result State} (ho : ∀ t, o ≠ .next t) :
    step s = o ↔ ∃ a rest, s.hostMoves a rest ∧ hostStep s.tick a rest = o := by
  constructor
  · intro h
    cases hturn : s.unitTurn with
    | true =>
      obtain ⟨_, _, _, _, _, hunit⟩ := unitStep_next s
      exact absurd (h.symm.trans ((step_unit hturn).trans hunit)) (ho _)
    | false =>
      cases hhost : s.host with
      | nil => exact absurd (h.symm.trans (step_idle hturn hhost)) (ho _)
      | cons a rest => exact ⟨a, rest, ⟨hturn, hhost⟩, (step_host hturn hhost).symm.trans h⟩
  · rintro ⟨a, rest, ⟨hturn, hhost⟩, h⟩
    exact (step_host hturn hhost).trans h

/-- R264: a write stops with its offset exactly while `BUSY = 1`, at an RW offset or `CTRL`. -/
theorem hostWrite_fault_iff_offset (s : State) (off : Offset) (v : Byte) (f : Fault) :
    hostWrite s off v = .fault f ↔
      s.busy = true ∧ f = .hostWriteWhileBusy off ∧ (rwOffset off ∨ off = 0x02) := by
  rw [hostWrite_fault_iff, access_wo_iff, access_rw_iff, or_comm, and_comm (b := f = _)]

/-- R264: the host's action stops with a fault exactly when it writes an RW offset or `CTRL` while
`BUSY = 1`; a `START` is such a write (R76). -/
theorem hostStep_fault_iff (s : State) (a : HostAction) (rest : List HostAction) (f : Fault) :
    hostStep s a rest = .fault f ↔ s.busy = true ∧ ∃ off v, f = .hostWriteWhileBusy off ∧
      (rwOffset off ∨ off = 0x02) ∧ (a = .wrb off v ∨ off = 0x02 ∧ a = .start) := by
  cases a with
  | wrb off v =>
    refine (hostWrite_fault_iff_offset { s with host := rest } off v f).trans
      (and_congr_right fun _ => ⟨fun ⟨hf, hoff⟩ => ⟨off, v, hf, hoff, .inl rfl⟩, ?_⟩)
    rintro ⟨off', v', hf, hoff, ha | ⟨-, ha⟩⟩
    · cases ha
      exact ⟨hf, hoff⟩
    · cases ha
  | start =>
    refine (hostWrite_fault_iff_offset { s with host := rest } offCtrl 0x01 f).trans
      (and_congr_right fun _ => ⟨fun ⟨hf, hoff⟩ => ⟨offCtrl, 0x01, hf, hoff, .inr ⟨rfl, rfl⟩⟩, ?_⟩)
    rintro ⟨off, v, hf, hoff, ha | ⟨rfl, -⟩⟩
    · cases ha
    · exact ⟨hf, hoff⟩
  | wait =>
    simp only [hostStep]
    split <;> simp
  | rdb off x => simp [hostStep]
  | wide off n => simp [hostStep]
  | assertReset => simp [hostStep]

/-- R54: the host's action is refused exactly when it is an access of another width. -/
theorem hostStep_refused_iff (s : State) (a : HostAction) (rest : List HostAction) (r : Refusal) :
    hostStep s a rest = .refused r ↔ ∃ off n, r = .wideAccess off n ∧ a = .wide off n := by
  cases a with
  | wrb off v => simp [hostStep, hostWrite_not_refused]
  | start => simp [hostStep, hostWrite_not_refused]
  | wait =>
    simp only [hostStep]
    split <;> simp
  | wide off n => simp [hostStep, eq_comm (a := r)]
  | rdb off x => simp [hostStep]
  | assertReset => simp [hostStep]

theorem step_fault_iff (s : State) (f : Fault) : step s = .fault f ↔
    s.busy = true ∧ ∃ rest off v, f = .hostWriteWhileBusy off ∧ (rwOffset off ∨ off = 0x02) ∧
      (s.hostMoves (.wrb off v) rest ∨ off = 0x02 ∧ s.hostMoves .start rest) := by
  simp only [step_stops_iff (o := .fault f) nofun, hostStep_fault_iff, State.tick_busy]
  constructor
  · rintro ⟨a, rest, hmove, hbusy, off, v, hf, hoff, rfl | ⟨hctrl, rfl⟩⟩
    · exact ⟨hbusy, rest, off, v, hf, hoff, .inl hmove⟩
    · exact ⟨hbusy, rest, off, v, hf, hoff, .inr ⟨hctrl, hmove⟩⟩
  · rintro ⟨hbusy, rest, off, v, hf, hoff, hmove | ⟨hctrl, hmove⟩⟩
    · exact ⟨_, rest, hmove, hbusy, off, v, hf, hoff, .inl rfl⟩
    · exact ⟨_, rest, hmove, hbusy, off, v, hf, hoff, .inr ⟨hctrl, rfl⟩⟩

theorem step_refused_iff (s : State) (r : Refusal) : step s = .refused r ↔
    ∃ rest off n, r = .wideAccess off n ∧ s.hostMoves (.wide off n) rest := by
  simp only [step_stops_iff (o := .refused r) nofun, hostStep_refused_iff]
  constructor
  · rintro ⟨_, rest, hmove, off, n, hr, rfl⟩
    exact ⟨rest, off, n, hr, hmove⟩
  · rintro ⟨rest, off, n, hr, hmove⟩
    exact ⟨_, rest, hmove, off, n, hr, rfl⟩

/-- Settles O36: only the host's action can stop a step (`step_stops_iff`); that a refused access is
not one of 8 bits is what its being well formed says. -/
theorem stopsExactlyOnHazards : Obligations.StopsExactlyOnHazards := by
  refine ⟨step_fault_iff, fun s r hwf => (step_refused_iff s r).trans ⟨?_, ?_⟩⟩
  · rintro ⟨rest, off, n, hr, hmove⟩
    have hn : n ≠ 8 := by simpa [HostAction.wf] using hwf _ _ hmove
    exact ⟨rest, off, n, hn, hr, hmove⟩
  · rintro ⟨rest, off, n, -, hr, hmove⟩
    exact ⟨rest, off, n, hr, hmove⟩

end Sys2Proof.Machine
end

section
/-! PROOFS. The obligation about the opcode map (spec/30_encoding.md R71). -/

namespace Sys2Proof.Machine

/-- A byte decodes to a command exactly when it is the command's word. -/
theorem decode_eq_ok_iff {c : Byte} {i : Instr} : decode c = .ok i ↔ c = encode i := by
  constructor
  · exact fun h => (encode_of_decode c i h).symm
  · rintro rfl
    exact decode_encode i

/-- Settles O1: the decoder inverts the encoder (`decode_eq_ok_iff`), and each command stands in one
row only, with its word. -/
theorem opcodeMapSelectsCommands : Obligations.OpcodeMapSelectsCommands := by
  intro c i
  rw [decode_eq_ok_iff]
  cases i <;> simp [encode]

end Sys2Proof.Machine
end

section
/-! PROOFS. The obligations about the encode commands (spec/40_encode.md R102 to R104): each command
as a length check on the characters its rule names, and what such a check answers. -/

namespace Sys2Proof.Machine

/-- R104: an identifier's characters are the timestamp's of bytes 0 to 5, then the randomness's of
bytes 6 to 15. -/
theorem encodeIdentifier_inp (s : State) :
    (encodeIdentifier (lanes s.inp 0 16)).toList =
      (timestampGroups s.inLane ++ base32Digits 16 (bigEndian ((s.inList 16).drop 6))).map charOf := by
  have hrand : (lanes (lanes s.inp 0 16) 6 10).toList = (s.inList 16).drop 6 := by
    rw [toList_lanes, toList_lanes_inp]
    exact List.take_of_length_le (by simp [State.inList])
  rw [encodeIdentifier, Vector.toList_append, toList_encodeRandomness, hrand,
    lanes_lanes (h3 := by decide), encodeTimestamp_inp, List.map_append]

/-! ### The commands as length checks -/

theorem exec_encTs (s : State) :
    exec .encTs s = if s.inLen ≠ 6 then raise s .length
      else finish s ((timestampGroups s.inLane).map charOf) 0 0x00 := by
  rw [← encodeTimestamp_inp]
  rfl

theorem exec_encRand (s : State) :
    exec .encRand s = if s.inLen ≠ 10 then raise s .length
      else finish s ((base32Digits 16 (bigEndian (s.inList 10))).map charOf) 0 0x00 := by
  rw [← toList_lanes_inp s 10 (by decide), ← toList_encodeRandomness]
  rfl

theorem exec_enc (s : State) :
    exec .enc s = if s.inLen ≠ 16 then raise s .length
      else finish s ((timestampGroups s.inLane ++
        base32Digits 16 (bigEndian ((s.inList 16).drop 6))).map charOf) 0 0x00 := by
  rw [← encodeIdentifier_inp]
  rfl

/-- R201, R210: a command that only checks its length fails with code 2 and a clear `ERR_INFO` on a
wrong length, and else completes with its lanes. -/
theorem lengthCheck_completes (s : State) (n : Byte) {lns : List Byte} (hl : lns.length ≤ 26)
    {o : Result State}
    (ho : o = if s.inLen ≠ n then raise s .length else finish s lns 0 0x00) :
    (s.inLen ≠ n → ∃ t, o = .next t ∧ Fails s t 2 0x00) ∧
      (s.inLen = n → ∃ t, o = .next t ∧ Succeeds s t lns 0 0x00) := by
  subst ho
  constructor
  · intro hne
    rw [if_pos hne]
    exact fails_of_raise s .length 2 0x00 rfl rfl
  · intro heq
    rw [if_neg (not_not_intro heq)]
    exact finish_succeeds s lns 0 0x00 hl

/-! ### The obligations -/

/-- Settles O7: `ENC_TS` is a length check on the ten characters of R100's groups. -/
theorem encTsWritesTimestampCharacters : Obligations.EncTsWritesTimestampCharacters :=
  fun s => lengthCheck_completes s 6 (by simp [timestampGroups]) (exec_encTs s)

/-- Settles O8: `ENC_RAND` is a length check on the sixteen base-32 digits of the 80-bit value. -/
theorem encRandWritesRandomnessDigits : Obligations.EncRandWritesRandomnessDigits :=
  fun s => lengthCheck_completes s 10 (by simp) (exec_encRand s)

/-- Settles O9: `ENC` is a length check on the timestamp's ten characters followed by the
randomness's sixteen. -/
theorem encWritesBothParts : Obligations.EncWritesBothParts :=
  fun s => lengthCheck_completes s 16 (by simp [timestampGroups]) (exec_enc s)

end Sys2Proof.Machine
end

section
/-! PROOFS. The obligations about the decode commands (spec/41_decode.md R120 to R127, R131): each
command as a length check before the scan of its lanes, what the scan's three answers leave, and the
bytes of given values as R123 and R124 write them. -/

namespace Sys2Proof.Machine

/-! ### The bytes of given values -/

/-- R123: the bytes unpacked from the groups of ten values. -/
theorem toList_unpackTimestamp_groupsOfValues {v : Nat → Nat} (hv : ∀ k < 10, v k < 32) :
    (unpackTimestamp (groupsOfValues 10 v)).toList = (timestampBytes v).map (BitVec.ofNat 8) := by
  refine toList_of_values ((values_unpackTimestamp _).trans (timestampBytes_congr fun k hk => ?_))
  simp [groupValues_groupsOfValues hv, hk]

/-- R124: the bytes unpacked from the groups of sixteen values. -/
theorem toList_unpackRandomness_groupsOfValues {v : Nat → Nat} (hv : ∀ k < 16, v k < 32) :
    (unpackRandomness (groupsOfValues 16 v)).toList = (randomnessBytes v).map (BitVec.ofNat 8) := by
  refine toList_of_values ((values_unpackRandomness _).trans (randomnessBytes_congr fun k hk => ?_))
  simp [groupValues_groupsOfValues hv, hk]

/-- R127: the bytes unpacked from the groups of 26 values, split at value 10. -/
theorem toList_unpackIdentifier_groupsOfValues {v : Nat → Nat} (hv : ∀ k < 26, v k < 32) :
    (unpackIdentifier (groupsOfValues 26 v)).toList =
      (timestampBytes v ++ randomnessBytes fun k => v (10 + k)).map (BitVec.ofNat 8) := by
  have hts : ∀ k < 10, v (0 + k) < 32 := fun k hk => hv (0 + k) (by omega)
  have hrand : ∀ k < 16, v (10 + k) < 32 := fun k hk => hv (10 + k) (by omega)
  rw [unpackIdentifier, Vector.toList_append, lanes_groupsOfValues, lanes_groupsOfValues,
    toList_unpackTimestamp_groupsOfValues hts, toList_unpackRandomness_groupsOfValues hrand,
    List.map_append]
  simp only [Nat.zero_add]

/-! ### The commands as length checks before a scan -/

theorem exec_decTs (s : State) :
    exec .decTs s = if s.inLen ≠ 10 then raise s .length
      else decodeLanes s true (lanes s.inp 0 10) unpackTimestamp := rfl

theorem exec_decRand (s : State) :
    exec .decRand s = if s.inLen ≠ 16 then raise s .length
      else decodeLanes s false (lanes s.inp 0 16) unpackRandomness := rfl

theorem exec_dec (s : State) :
    exec .dec s = if s.inLen ≠ 26 then raise s .length
      else decodeLanes s true (lanes s.inp 0 26) unpackIdentifier := by
  rw [← inp_eq_lanes]
  rfl

/-- The scan accepts the characters of given values, the first of a timestamp at most 7. -/
theorem validate_spells {s : State} {n : Nat} {v : Nat → Nat} {ts : Bool} (hn : 0 + n ≤ 26)
    (hv : s.Spells n v) (h0 : ts = true → v 0 ≤ 7) :
    validate ts (lanes s.inp 0 n hn) = .ok (groupsOfValues n v) := by
  rw [lanes_of_spells hv hn]
  exact validate_mapLanes_encodeChar ts _ fun hts hpos => groupsOfValues_zero hpos (h0 hts)

section
variable {s : State} {len : Byte} {n m : Nat} {ts : Bool} {hn : 0 + n ≤ 26}
  {unpack : Vector Group n → Vector Byte m} {o : Result State}
  (ho : o = if s.inLen ≠ len then raise s .length
    else decodeLanes s ts (lanes s.inp 0 n hn) unpack)
include ho

/-- R201: the length error comes before the scan. -/
theorem decode_wrongLength (hlen : s.inLen ≠ len) : ∃ t, o = .next t ∧ Fails s t 2 0x00 := by
  rw [ho, if_pos hlen]
  exact fails_of_raise s .length 2 0x00 rfl rfl

/-- R210: the lanes that spell accepted values complete the command with the bytes unpacked. -/
theorem decode_spells (hlen : s.inLen = len) {v : Nat → Nat} (hv : s.Spells n v)
    (h0 : ts = true → v 0 ≤ 7) (hm : m ≤ 26) {lns : List Byte}
    (hlns : (unpack (groupsOfValues n v)).toList = lns) :
    ∃ t, o = .next t ∧ Succeeds s t lns 0 0x00 := by
  subst hlns
  rw [ho, if_neg (not_not_intro hlen), decodeLanes_of_ok s unpack (validate_spells hn hv h0)]
  exact finish_succeeds s _ 0 0x00 (by rwa [Vector.length_toList])

/-- R122: the lowest lane outside the alphabet is reported when no overflow comes first. -/
theorem decode_badLane (hlen : s.inLen = len) {i : Nat} (hbad : s.BadLane n i)
    (h0 : ts = true → ¬ s.FirstOverflows) :
    ∃ t, o = .next t ∧ Fails s t 3 (BitVec.ofNat 8 i) := by
  rw [ho, if_neg (not_not_intro hlen), decodeLanes_of_error s unpack (validate_badLane hn hbad h0)]
  exact fails_of_raise s (.alphabet i false) 3 _ rfl (infoByte_alphabet i)

/-- R121: an overflowing first character of a timestamp is reported, whatever stands after it. -/
theorem decode_overflow (hlen : s.inLen = len) (hts : ts = true) (hpos : 0 < n)
    (hover : s.FirstOverflows) : ∃ t, o = .next t ∧ Fails s t 3 0x80 := by
  subst hts
  rw [ho, if_neg (not_not_intro hlen),
    decodeLanes_of_error s unpack (validate_overflow hn hpos hover)]
  exact fails_of_raise s (.alphabet 0 true) 3 0x80 rfl rfl

end

/-! ### The obligations -/

/-- Settles O12: a length check, then the scan of ten lanes that start a timestamp; the bytes are
R123's. -/
theorem decTsUnpacksOrReports : Obligations.DecTsUnpacksOrReports := fun s =>
  ⟨decode_wrongLength (exec_decTs s),
    fun hlen _ hv h0 => decode_spells (exec_decTs s) hlen hv (fun _ => h0) (by decide)
      (toList_unpackTimestamp_groupsOfValues fun k hk => (hv k hk).1),
    fun hlen _ hbad h0 => decode_badLane (exec_decTs s) hlen hbad fun _ => h0,
    fun hlen => decode_overflow (exec_decTs s) hlen rfl (by decide)⟩

/-- Settles O13: a length check, then the scan of sixteen lanes of which none can overflow; the
bytes are R124's. -/
theorem decRandUnpacksOrReports : Obligations.DecRandUnpacksOrReports := fun s =>
  ⟨decode_wrongLength (exec_decRand s),
    fun hlen _ hv => decode_spells (exec_decRand s) hlen hv nofun (by decide)
      (toList_unpackRandomness_groupsOfValues fun k hk => (hv k hk).1),
    fun hlen _ hbad => decode_badLane (exec_decRand s) hlen hbad nofun⟩

/-- Settles O14: a length check, then one scan of all 26 lanes; the bytes are R123's of the first ten
values and R124's of the rest. -/
theorem decUnpacksOrReports : Obligations.DecUnpacksOrReports := fun s =>
  ⟨decode_wrongLength (exec_dec s),
    fun hlen _ hv h0 => decode_spells (exec_dec s) hlen hv (fun _ => h0) (by decide)
      (toList_unpackIdentifier_groupsOfValues fun k hk => (hv k hk).1),
    fun hlen _ hbad h0 => decode_badLane (exec_dec s) hlen hbad fun _ => h0,
    fun hlen => decode_overflow (exec_dec s) hlen rfl (by decide)⟩

/-! ### Errors of every command -/

/-- R210: a completion without error leaves `STATUS.ERR` 0. -/
theorem finish_err {s t : State} {lns : List Byte} {word : Word128} {rel : Byte}
    (h : finish s lns word rel = .next t) : t.err = 0 := by
  cases h
  exact (by decide : statusDone.extractLsb' 2 3 = 0)

/-- R205: after a raised error `STATUS.ERR` is the error's code. -/
theorem raise_err {s t : State} {e : ErrKind} (h : raise s e = .next t) : t.err = e.code := by
  cases h
  exact e.statusByte_err

/-- R205: only an alphabet error has a report. -/
theorem infoByte_of_code_ne {e : ErrKind} (h : e.code ≠ 3) : e.infoByte = 0x00 := by
  cases e with
  | alphabet pos ovf => exact absurd rfl h
  | illegalCommand => rfl
  | length => rfl
  | range => rfl

/-- Settles O30: a command completes by `finish`, which leaves no error, or by `raise`, whose code
and report are the error's own. -/
theorem errorsClearEveryOutput : Obligations.ErrorsClearEveryOutput := by
  intro i s t hexec herr
  rcases exec_cases i s with ⟨lns, word, rel, hfinish, -⟩ | ⟨e, hraise, -⟩
  · exact absurd (finish_err (hfinish.symm.trans hexec)) herr
  · have hnext : raise s e = .next t := hraise.symm.trans hexec
    obtain ⟨u, hu, hfails⟩ := raise_fails s e
    obtain rfl : u = t := by cases hu.symm.trans hnext; rfl
    rw [raise_err hnext, hfails.errInfo]
    exact ⟨hfails, infoByte_of_code_ne⟩

end Sys2Proof.Machine
end

section
/-! PROOFS. The obligations about the byte-order and ordering commands (spec/42_ordering.md R160 to
R164): each command as its checks before a completion, the big-endian value as a sum over the lanes,
and the code of a lexicographic comparison. -/

namespace Sys2Proof.Machine

/-! ### Big-endian values as sums -/

/-- R13: byte `i` of `n` weighs `256^(n-1-i)`. -/
theorem bigEndian_eq_sum (bs : List Byte) :
    bigEndian bs = ∑ i ∈ Finset.range bs.length, (bs.getD i 0).toNat * 256 ^ (bs.length - 1 - i) := by
  induction bs with
  | nil => rfl
  | cons b bs ih =>
    rw [List.length_cons, Finset.sum_range_succ', bigEndian, ih, Nat.add_comm]
    congr 1
    refine Finset.sum_congr rfl fun i _ => ?_
    rw [List.getD_cons_succ, show bs.length + 1 - 1 - (i + 1) = bs.length - 1 - i by omega]

theorem length_inList (s : State) {n : Nat} (hn : n ≤ 26) : (s.inList n).length = n := by
  simp [State.inList, hn]

theorem getD_inList (s : State) {n i : Nat} (hi : i < n) : (s.inList n).getD i 0 = s.inLane i := by
  simp [State.inList, State.inLane, List.getD_eq_getElem?_getD, List.getElem?_take_of_lt hi]

theorem bigEndian_inList (s : State) {n : Nat} (hn : n ≤ 26) :
    bigEndian (s.inList n) =
      ∑ i ∈ Finset.range n, (s.inLane i).toNat * 256 ^ (n - 1 - i) := by
  rw [bigEndian_eq_sum, length_inList s hn]
  refine Finset.sum_congr rfl fun i hi => ?_
  rw [getD_inList s (Finset.mem_range.1 hi)]

/-- Sixteen lanes at most fit `WORD_OUT`. -/
theorem toNat_ofNat_bigEndian_inList (s : State) {n : Nat} (hn : n ≤ 16) :
    (BitVec.ofNat 128 (bigEndian (s.inList n))).toNat = bigEndian (s.inList n) := by
  have hlen : (s.inList n).length = n := length_inList s (by omega)
  rw [BitVec.toNat_ofNat]
  refine Nat.mod_eq_of_lt ?_
  calc bigEndian (s.inList n) < 256 ^ (s.inList n).length := bigEndian_lt _
    _ ≤ 256 ^ 16 := Nat.pow_le_pow_right (by decide) (hlen.trans_le hn)
    _ = 2 ^ 128 := by norm_num

/-! ### The commands as checks before a completion -/

theorem exec_tsPack (s : State) :
    exec .tsPack s = if s.inLen ≠ 10 then raise s .length
      else if s.tsIn.toInt < 0 ∨ 2 ^ 48 ≤ s.tsIn.toInt then raise s .range
      else finish s ((bigEndianBytes 6 s.tsIn.toInt.toNat).toList ++ s.inList 10) 0 0x00 := by
  have hrange : 2 ^ 48 ≤ s.tsIn.toInt ↔ s.tsIn.toInt > 2 ^ 48 - 1 := by omega
  simp only [hrange]
  rw [← toList_lanes_inp s 10 (by decide)]
  rfl

theorem exec_tsUnpack (s : State) :
    exec .tsUnpack s = if s.inLen ≠ 16 then raise s .length
      else finish s [] (BitVec.ofNat 128 (bigEndian (s.inList 6))) 0x00 := by
  rw [← toList_lanes_inp s 6 (by decide)]
  rfl

theorem exec_intToBytes (s : State) :
    exec .intToBytes s = finish s (bigEndianBytes 16 s.intIn.toNat).toList 0 0x00 := rfl

theorem exec_bytesToInt (s : State) :
    exec .bytesToInt s = if s.inLen ≠ 16 then raise s .length
      else finish s [] (BitVec.ofNat 128 (bigEndian (s.inList 16))) 0x00 := by
  rw [← toList_lanes_inp s 16 (by decide)]
  rfl

theorem exec_cmp (s : State) :
    exec .cmp s = if 26 < s.inLen.toNat then raise s .length
      else finish s [] 0 (relationCode (lexCompare s.ident.toList (s.inList s.inLen.toNat))) := rfl

/-- R201: a command whose length check `wrong` comes first fails with code 2 where it applies,
whatever the command does after it. -/
theorem fails_of_wrongLength {s : State} {wrong : Prop} [Decidable wrong] {o o' : Result State}
    (ho : o = if wrong then raise s .length else o') (hwrong : wrong) :
    ∃ t, o = .next t ∧ Fails s t 2 0x00 := by
  rw [ho, if_pos hwrong]
  exact fails_of_raise s .length 2 0x00 rfl rfl

/-- R161, R163: a command that checks for sixteen lanes and gives the value of the first `n` leaves
their sum in `WORD_OUT`. -/
theorem lengthCheck_readsWord {s : State} {n : Nat} (hn : n ≤ 16) {o : Result State}
    (ho : o = if s.inLen ≠ 16 then raise s .length
      else finish s [] (BitVec.ofNat 128 (bigEndian (s.inList n))) 0x00) :
    (s.inLen ≠ 16 → ∃ t, o = .next t ∧ Fails s t 2 0x00) ∧
      (s.inLen = 16 → ∃ t w, o = .next t ∧ Succeeds s t [] w 0x00 ∧
        w.toNat = ∑ i ∈ Finset.range n, (s.inLane i).toNat * 256 ^ (n - 1 - i)) := by
  refine ⟨fails_of_wrongLength ho, fun hlen => ?_⟩
  obtain ⟨t, ht, hsucc⟩ := finish_succeeds s []
    (BitVec.ofNat 128 (bigEndian (s.inList n))) 0x00 (by decide)
  rw [ho, if_neg (not_not_intro hlen)]
  exact ⟨t, _, ht, hsucc,
    (toNat_ofNat_bigEndian_inList s hn).trans (bigEndian_inList s (by omega))⟩

/-! ### The code of a comparison -/

theorem relationCode_of_lexLess {A B : List Byte} (h : LexLess A B) :
    relationCode (lexCompare A B) = 0x01 := by
  rw [lexCompare_lt_iff.2 h]
  rfl

theorem relationCode_of_eq {A B : List Byte} (h : A = B) :
    relationCode (lexCompare A B) = 0x02 := by
  rw [lexCompare_eq_iff.2 h]
  rfl

/-- R14's order is total: what is neither less nor equal is greater. -/
theorem relationCode_of_not_lexLess_of_ne {A B : List Byte} (hlt : ¬ LexLess A B) (hne : A ≠ B) :
    relationCode (lexCompare A B) = 0x03 := by
  cases h : lexCompare A B with
  | lt => exact absurd (lexCompare_lt_iff.1 h) hlt
  | eq => exact absurd (lexCompare_eq_iff.1 h) hne
  | gt => rfl

/-! ### The obligations -/

/-- Settles O19: the length check, then the range check, then the six bytes of an in-range timestamp,
whose value is the timestamp itself, before the ten lanes. -/
theorem tsPackPlacesTimestamp : Obligations.TsPackPlacesTimestamp := by
  refine fun s => ⟨fails_of_wrongLength (exec_tsPack s), fun hlen hrange => ?_,
    fun hlen h0 hlt => ?_⟩
  · rw [exec_tsPack, if_neg (not_not_intro hlen), if_pos hrange]
    exact fails_of_raise s .range 4 0x00 rfl rfl
  · have hin : ¬ (s.tsIn.toInt < 0 ∨ 2 ^ 48 ≤ s.tsIn.toInt) := by omega
    have hbytes : (bigEndianBytes 6 s.tsIn.toInt.toNat).toList.length = 6 := Vector.length_toList
    have hcount : ((bigEndianBytes 6 s.tsIn.toInt.toNat).toList ++ s.inList 10).length = 16 := by
      rw [List.length_append, hbytes, length_inList s (by decide)]
    obtain ⟨t, ht, hsucc⟩ := finish_succeeds s _ 0 0x00 (hcount.trans_le (by decide))
    rw [exec_tsPack, if_neg (not_not_intro hlen), if_neg hin]
    refine ⟨t, _, ht, hsucc, hcount, ?_, List.drop_left' hbytes⟩
    rw [List.take_left' hbytes, bigEndian_bigEndianBytes]
    omega

/-- Settles O20: a length check, then the sum over the first six lanes. -/
theorem tsUnpackReadsTimestamp : Obligations.TsUnpackReadsTimestamp := fun s =>
  lengthCheck_readsWord (by decide) (exec_tsUnpack s)

/-- Settles O21: the command completes with the big-endian form of `INT_IN`, whose bytes are the
slices of the word from the highest down. -/
theorem intToBytesWritesBigEndian : Obligations.IntToBytesWritesBigEndian := by
  intro s
  obtain ⟨t, ht, hsucc⟩ := finish_succeeds s (bigEndianBytes 16 s.intIn.toNat).toList 0 0x00
    (by rw [Vector.length_toList]; decide)
  refine ⟨t, _, (exec_intToBytes s).trans ht, hsucc, Vector.length_toList, fun i hi => ?_⟩
  rw [List.getD_eq_getElem _ _ (by rwa [Vector.length_toList]), Vector.getElem_toList,
    ← getByte_eq_bigEndianBytes 16 s.intIn i hi (n := 120 - 8 * i) (by omega), getByte]

/-- Settles O22: a length check, then the sum over the sixteen lanes. -/
theorem bytesToIntReadsBigEndian : Obligations.BytesToIntReadsBigEndian := fun s =>
  lengthCheck_readsWord (by decide) (exec_bytesToInt s)

/-- Settles O23: a check of the length's bound, then the code of comparing `ID` with the lanes. -/
theorem cmpComparesLexicographically : Obligations.CmpComparesLexicographically := by
  refine fun s => ⟨fails_of_wrongLength (exec_cmp s), fun hlen => ?_⟩
  obtain ⟨t, ht, hsucc⟩ := finish_succeeds s [] 0
    (relationCode (lexCompare s.ident.toList (s.inList s.inLen.toNat))) (by decide)
  rw [exec_cmp, if_neg (by omega)]
  exact ⟨t, _, ht, hsucc, relationCode_of_lexLess, relationCode_of_eq,
    relationCode_of_not_lexLess_of_ne⟩

end Sys2Proof.Machine
end

section
/-! PROOFS. The obligation about a reserved value of `CMD` (spec/60_exceptions.md R202). -/

namespace Sys2Proof.Machine

/-- R202: on a value the decoder rejects the unit raises `IllegalCommand`. -/
theorem unitStep_of_decode_error {s : State} {r : DecodeReject} (h : decode s.cmd = .error r) :
    unitStep s = raise s .illegalCommand := by
  simp only [unitStep, h]

/-- Settles O28: the unit moves, the decoder rejects a reserved value (R74), and `IllegalCommand` has
code 1 and no report. -/
theorem reservedCommandReportsIllegal : Obligations.ReservedCommandReportsIllegal := by
  intro s hturn hreserved
  have hdecode := (decode_reserved_iff s.cmd).2 hreserved
  rw [step_unit hturn, unitStep_of_decode_error hdecode]
  exact fails_of_raise s .illegalCommand 1 0x00 rfl rfl

end Sys2Proof.Machine
end

section
/-! PROOFS. The invariant of the registers (spec/10_state.md R25 to R28, R36, R37;
spec/60_exceptions.md R204, R205): it speaks of the outputs alone, so it is enough to say what a
completion, a `START` and a reset leave in them. -/

namespace Sys2Proof.Machine

/-! ### What a host step leaves in the outputs -/

theorem SameOutputs.busy {s t : State} (h : SameOutputs s t) : t.busy = s.busy :=
  congrArg (BitVec.getLsbD · 1) h.status

theorem writeLoc_sameOutputs (s : State) (l : Loc) (v : Byte) : SameOutputs s (s.writeLoc l v) :=
  ⟨s.writeLoc_status l v, s.writeLoc_errInfo l v, s.writeLoc_outLen l v, s.writeLoc_cmpOut l v,
    s.writeLoc_wordOut l v, s.writeLoc_out l v⟩

/-- R266, R214: a host step leaves the outputs and `STATUS` as they were, unless it starts a command
from idle (R259) or resets (R250). -/
theorem hostStep_outputs {s t : State} {a : HostAction} {rest : List HostAction}
    (h : hostStep s a rest = .next t) :
    SameOutputs s t ∨ (s.busy = false ∧ a.StartsCommand ∧ SameOutputs s.start t) ∨
      (a = .assertReset ∧ SameOutputs State.reset t) := by
  rcases hostStep_cases h with ⟨rfl, -⟩ | ⟨rfl, hidle, hstarts⟩ | ⟨l, v, _, -, -, -, -, rfl⟩ |
    ⟨_, _, _, _, -, rfl⟩ | ⟨-, -, rfl⟩ | ⟨ha, rfl⟩
  · exact .inl ⟨rfl, rfl, rfl, rfl, rfl, rfl⟩
  · exact .inr (.inl ⟨hidle, (starts_iff a).1 hstarts, rfl, rfl, rfl, rfl, rfl, rfl⟩)
  · obtain ⟨h1, h2, h3, h4, h5, h6⟩ := writeLoc_sameOutputs { s with host := rest } l v
    exact .inl ⟨h1, h2, h3, h4, h5, h6⟩
  · exact .inl ⟨rfl, rfl, rfl, rfl, rfl, rfl⟩
  · exact .inl ⟨rfl, rfl, rfl, rfl, rfl, rfl⟩
  · exact .inr (.inr ⟨ha, rfl, rfl, rfl, rfl, rfl, rfl⟩)

/-! ### The invariant of what a step leaves -/

/-- The invariant speaks of the outputs and `STATUS` alone. -/
theorem State.Inv.of_sameOutputs {s t : State} (hs : s.Inv) (h : SameOutputs s t) : t.Inv := by
  obtain ⟨hstatus, hinfo, hlen, hcmp, hword, hout⟩ := h
  cases s
  cases t
  subst hstatus hinfo hlen hcmp hword hout
  exact ⟨hs.status_legal, hs.errInfo_fields, hs.overflow_at_zero, hs.errInfo_zero,
    hs.outLen_legal, hs.out_clear, hs.cmpOut_legal, hs.word_alone, hs.relation_alone,
    hs.outputs_clear⟩

/-- Settles O34: every register is 0 after reset. -/
theorem resetMeetsInvariant : Obligations.ResetMeetsInvariant where
  status_legal := by decide
  errInfo_fields := by decide
  overflow_at_zero := by decide
  errInfo_zero _ _ := rfl
  outLen_legal := by decide
  out_clear i _ := Vector.getElem_replicate i.isLt
  cmpOut_legal := by decide
  word_alone _ := ⟨rfl, rfl⟩
  relation_alone _ := rfl
  outputs_clear _ _ := ⟨rfl, rfl, rfl⟩

/-- R259: a `START` writes `STATUS` alone, and while `BUSY = 1` nothing more is asked of the
outputs. -/
theorem State.Inv.start {s : State} (hs : s.Inv) : s.start.Inv where
  status_legal := (by decide : statusBusy ∈ legalStatus)
  errInfo_fields := hs.errInfo_fields
  overflow_at_zero := hs.overflow_at_zero
  errInfo_zero hidle := by simp at hidle
  outLen_legal := hs.outLen_legal
  out_clear := hs.out_clear
  cmpOut_legal := hs.cmpOut_legal
  word_alone := hs.word_alone
  relation_alone := hs.relation_alone
  outputs_clear hidle := by simp at hidle

/-- R72: lanes come alone and are 6, 10, 16 or 26; a word or a relation comes with no lane. -/
theorem LegalOutputs.spec {lns : List Byte} {word : Word128} {rel : Byte}
    (h : LegalOutputs lns word rel) :
    lns.length ∈ [0, 6, 10, 16, 26] ∧ rel.toNat ≤ 3 ∧ (word ≠ 0 → lns = [] ∧ rel = 0) ∧
      (rel ≠ 0 → lns = []) := by
  rcases h with ⟨hlen, rfl, rfl⟩ | ⟨rfl, rfl⟩ | ⟨rfl, rfl, hrel⟩
  · exact ⟨List.mem_cons_of_mem _ hlen, by decide, by simp, by simp⟩
  · simp
  · simpa using hrel

theorem LegalOutputs.length_le {lns : List Byte} {word : Word128} {rel : Byte}
    (h : LegalOutputs lns word rel) : lns.length ≤ 26 :=
  (by decide : ∀ n ∈ [0, 6, 10, 16, 26], n ≤ 26) _ h.spec.1

/-- R37: the lanes of a completion from `OUT_LEN` on are clear. -/
theorem complete_out_clear (s : State) (st ei : Byte) {lns : List Byte} (w : Word128) (r : Byte)
    (hlen : lns.length ≤ 26) (i : Fin 26)
    (hi : (s.complete st ei lns w r).outLen.toNat ≤ i.val) :
    (s.complete st ei lns w r).out[i] = 0 := by
  rw [State.complete_outLen, BitVec.toNat_ofNat, Nat.mod_eq_of_lt (by omega)] at hi
  exact (getElem_complete_out s st ei lns w r i i.isLt).trans (List.getD_eq_default _ _ hi)

/-- R210: a completion without error, with outputs R72 allows. -/
theorem inv_of_finish {s t : State} {lns : List Byte} {word : Word128} {rel : Byte}
    (hlegal : LegalOutputs lns word rel) (h : finish s lns word rel = .next t) : t.Inv := by
  obtain ⟨hlen, hrel, hword, hrelation⟩ := hlegal.spec
  cases h
  exact {
    status_legal := (by decide : statusDone ∈ legalStatus)
    errInfo_fields := resetMeetsInvariant.errInfo_fields
    overflow_at_zero := resetMeetsInvariant.overflow_at_zero
    errInfo_zero := fun _ _ => rfl
    outLen_legal :=
      (by decide : ∀ n ∈ [0, 6, 10, 16, 26], BitVec.ofNat 8 n ∈ legalOutLen) _ hlen
    out_clear := complete_out_clear s _ _ _ _ hlegal.length_le
    cmpOut_legal := hrel
    word_alone := fun hne => by
      obtain ⟨rfl, rfl⟩ := hword hne
      exact ⟨rfl, rfl⟩
    relation_alone := fun hne => by
      obtain rfl := hrelation hne
      rfl
    outputs_clear := fun _ hne => absurd rfl hne }

/-- R204: the report of a legal error, whose `POS` is a lane of `IN`, 0 at an overflow. -/
theorem infoByte_fields {e : ErrKind} (he : e.Legal) :
    (e.infoByte.extractLsb' 0 5).toNat ≤ 25 ∧ e.infoByte.extractLsb' 5 2 = 0 ∧
      (e.infoByte.getLsbD 7 = true → e.infoByte.extractLsb' 0 5 = 0) := by
  cases e with
  | alphabet pos ovf =>
    obtain ⟨hpos, hovf⟩ := he
    cases ovf with
    | true =>
      obtain rfl := hovf rfl
      decide
    | false =>
      rw [infoByte_alphabet]
      exact (by decide : ∀ p < 26, ((BitVec.ofNat 8 p).extractLsb' 0 5).toNat ≤ 25 ∧
        (BitVec.ofNat 8 p).extractLsb' 5 2 = 0 ∧ ((BitVec.ofNat 8 p).getLsbD 7 = true →
          (BitVec.ofNat 8 p).extractLsb' 0 5 = 0)) pos (by omega)
  | illegalCommand => decide
  | length => decide
  | range => decide

theorem statusByte_legal (e : ErrKind) : e.statusByte ∈ legalStatus := by
  cases e <;> (simp only [ErrKind.statusByte, ErrKind.code]; decide)

/-- R205: an error completion clears every output and reports an alphabet error only. -/
theorem inv_of_raise {s t : State} {e : ErrKind} (hlegal : e.Legal) (h : raise s e = .next t) :
    t.Inv := by
  obtain ⟨hpos, hpad, hovf⟩ := infoByte_fields hlegal
  have herr : t.err = e.code := raise_err h
  cases h
  exact {
    status_legal := statusByte_legal e
    errInfo_fields := ⟨hpos, hpad⟩
    overflow_at_zero := hovf
    errInfo_zero := fun _ hne => infoByte_of_code_ne (herr ▸ hne)
    outLen_legal := resetMeetsInvariant.outLen_legal
    out_clear := complete_out_clear s _ _ _ _ (by decide)
    cmpOut_legal := resetMeetsInvariant.cmpOut_legal
    word_alone := fun _ => ⟨rfl, rfl⟩
    relation_alone := fun _ => rfl
    outputs_clear := fun _ _ => ⟨rfl, rfl, rfl⟩ }

theorem inv_of_unitStep {s t : State} (h : unitStep s = .next t) : t.Inv := by
  rcases unitStep_cases s with ⟨lns, word, rel, hfinish, hlegal⟩ | ⟨e, hraise, hlegal⟩
  · exact inv_of_finish hlegal (hfinish.symm.trans h)
  · exact inv_of_raise hlegal (hraise.symm.trans h)

/-! ### The obligation about a step -/

/-- Settles O35: whatever the state before, a completion meets the invariant, and so does a reset; a
`START` and every other host step keep it. -/
theorem stepKeepsInvariant : Obligations.StepKeepsInvariant := by
  intro s t hs hstep
  rcases step_cases hstep with ⟨-, hunit⟩ | ⟨-, -, rfl⟩ | ⟨-, a, rest, -, hhost⟩
  · exact inv_of_unitStep hunit
  · exact hs
  · have htick : s.tick.Inv := hs.of_sameOutputs ⟨rfl, rfl, rfl, rfl, rfl, rfl⟩
    rcases hostStep_outputs hhost with hsame | ⟨-, -, hstart⟩ | ⟨-, hreset⟩
    · exact htick.of_sameOutputs hsame
    · exact htick.start.of_sameOutputs hstart
    · exact resetMeetsInvariant.of_sameOutputs hreset

end Sys2Proof.Machine
end

section
/-! PROOFS. The obligations about one step (spec/20_memory.md R59, R63; spec/60_exceptions.md R213,
R214; spec/70_reset_and_hazards.md R250 to R266): whose step it is, and what each agent's step
changes and keeps. -/

namespace Sys2Proof.Machine

/-! ### The unit's step -/

/-- R205: an error completion is a completion: `DONE` is set whatever the error. -/
theorem statusByte_done (e : ErrKind) : e.statusByte.getLsbD 0 = true := by
  cases e <;> simp [ErrKind.statusByte, ErrKind.code]

/-- R205, R210: a completion sets `DONE`. -/
theorem unitStep_done {s t : State} (h : unitStep s = .next t) : t.done = true := by
  rcases unitStep_cases s with ⟨lns, word, rel, hfinish, -⟩ | ⟨e, hraise, -⟩
  · cases hfinish.symm.trans h
    exact (by decide : statusDone.getLsbD 0 = true)
  · cases hraise.symm.trans h
    exact statusByte_done e

/-- R260: the unit's step is a completion without error or with one. -/
theorem unitStep_completes (s : State) : ∃ t, unitStep s = .next t ∧
    ((∃ lns word rel, Succeeds s t lns word rel) ∨ ∃ code info, Fails s t code info) := by
  rcases unitStep_cases s with ⟨lns, word, rel, hfinish, hlegal⟩ | ⟨e, hraise, -⟩
  · obtain ⟨t, ht, hsucc⟩ := finish_succeeds s lns word rel hlegal.length_le
    exact ⟨t, hfinish.trans ht, .inl ⟨lns, word, rel, hsucc⟩⟩
  · obtain ⟨t, ht, hfails⟩ := raise_fails s e
    exact ⟨t, hraise.trans ht, .inr ⟨_, _, hfails⟩⟩

/-- Settles O29: in the unit's turn the step is the unit's, which completes its command. -/
theorem unitStepCompletesCommand : Obligations.UnitStepCompletesCommand := by
  intro s hturn
  obtain ⟨t, ht, hcompletes⟩ := unitStep_completes s
  exact ⟨busy_of_unitTurn hturn, t, (step_unit hturn).trans ht, hcompletes,
    unitStep_not_busy ht, unitStep_done ht⟩

theorem unitStep_of_decode_ok {s : State} {i : Instr} (h : decode s.cmd = .ok i) :
    unitStep s = exec i s := by
  simp only [unitStep, h]

/-- Settles O33: the step by whose turn it is; a placed command word is the unit's next, and decodes
to its command. -/
theorem stepRunsDecodedCommand : Obligations.StepRunsDecodedCommand := by
  refine ⟨fun s i hturn hdecode => (step_unit hturn).trans (unitStep_of_decode_ok hdecode),
    fun s a rest ⟨hturn, hhost⟩ => step_host hturn hhost,
    fun s hturn hhost => step_idle hturn hhost, fun s i => ?_⟩
  have hdecode : decode (s.withFetchWord 8 (encode i).toNat).cmd = .ok i := by
    rw [withFetchWord_cmd_encode, decode_encode]
  exact (step_unit (unitTurn_withFetchWord s 8 _)).trans (unitStep_of_decode_ok hdecode)

/-! ### The host's step -/

/-- R63: a host step leaves the inputs as they were, unless it writes from idle or resets. -/
theorem hostStep_inputs {s t : State} {a : HostAction} {rest : List HostAction}
    (h : hostStep s a rest = .next t) :
    SameInputs s t ∨ s.busy = false ∨ a = .assertReset := by
  rcases hostStep_cases h with ⟨rfl, -⟩ | ⟨-, hidle, -⟩ | ⟨_, _, _, -, -, -, hidle, -⟩ |
    ⟨_, _, _, _, -, rfl⟩ | ⟨-, -, rfl⟩ | ⟨ha, -⟩
  · exact .inl ⟨rfl, rfl, rfl, rfl, rfl, rfl⟩
  · exact .inr (.inl hidle)
  · exact .inr (.inl hidle)
  · exact .inl ⟨rfl, rfl, rfl, rfl, rfl, rfl⟩
  · exact .inl ⟨rfl, rfl, rfl, rfl, rfl, rfl⟩
  · exact .inr (.inr ha)

/-- Settles O38: the unit's step is a completion, which keeps the inputs, and a host step that
writes an input finds the block idle. -/
theorem inputsFixedWhileBusy : Obligations.InputsFixedWhileBusy := by
  intro s t hbusy hstep hnoreset
  rcases step_cases hstep with ⟨-, hunit⟩ | ⟨-, -, rfl⟩ | ⟨hturn, a, rest, hhost, ht⟩
  · obtain ⟨_, _, _, _, _, h⟩ := unitStep_next s
    cases h.symm.trans hunit
    exact complete_sameInputs _ _ _ _ _ _
  · exact ⟨rfl, rfl, rfl, rfl, rfl, rfl⟩
  · rcases hostStep_inputs ht with ⟨h1, h2, h3, h4, h5, h6⟩ | hidle | rfl
    · exact ⟨h1, h2, h3, h4, h5, h6⟩
    · cases hbusy.symm.trans hidle
    · exact absurd ⟨hturn, hhost⟩ (hnoreset rest)

/-- Settles O39: `hostStep_outputs` without its `START` and its reset. -/
theorem outputsStayUntilNextStart : Obligations.OutputsStayUntilNextStart := by
  intro s t a rest ⟨hturn, hhost⟩ hstep hstart hreset
  rcases hostStep_outputs ((step_host hturn hhost).symm.trans hstep) with h | ⟨-, h, -⟩ | ⟨h, -⟩
  · exact ⟨h.status, h.errInfo, h.outLen, h.cmpOut, h.wordOut, h.out⟩
  · exact absurd h hstart
  · exact absurd h hreset

/-- Settles O37: a host step that keeps the outputs keeps `BUSY`; a `START` finds the block idle and
raises it; the unit's step and a reset leave it clear. -/
theorem busyChangesOnlyByHandshake : Obligations.BusyChangesOnlyByHandshake := by
  intro s t hstep
  rcases step_cases hstep with ⟨hturn, hunit⟩ | ⟨-, -, rfl⟩ | ⟨hturn, a, rest, hhost, ht⟩
  · have hclear := unitStep_not_busy hunit
    exact ⟨fun _ hset => (nomatch hset.symm.trans hclear), fun _ _ => .inl hturn⟩
  · exact ⟨fun hclear hset => (nomatch hset.symm.trans hclear),
      fun hset hclear => (nomatch hset.symm.trans hclear)⟩
  · rcases hostStep_outputs ht with hsame | ⟨hidle, hstarts, hstart⟩ | ⟨rfl, hreset⟩
    · have hkeep : t.busy = s.busy := hsame.busy
      exact ⟨fun hclear hset => (nomatch hset.symm.trans (hkeep.trans hclear)),
        fun hset hclear => (nomatch hset.symm.trans (hkeep.symm.trans hclear))⟩
    · exact ⟨fun _ _ => ⟨a, rest, ⟨hturn, hhost⟩, hstarts, hstart.status⟩,
        fun hset _ => (nomatch hset.symm.trans hidle)⟩
    · have hclear : t.busy = false := hreset.busy.trans State.reset_busy
      exact ⟨fun _ hset => (nomatch hset.symm.trans hclear),
        fun _ _ => .inr ⟨rest, hturn, hhost⟩⟩

/-- Settles O6: the reset input is the host's step, which gives every register its reset value. -/
theorem resetInputClearsEveryRegister : Obligations.ResetInputClearsEveryRegister := by
  intro s rest ⟨hturn, hhost⟩
  exact ⟨_, step_host hturn hhost, ⟨rfl, rfl, rfl, rfl, rfl, rfl⟩, ⟨rfl, rfl, rfl, rfl, rfl, rfl⟩,
    State.assertReset_busy _⟩

/-- Settles O45: one of the two forms of the faulting write of `step_fault_iff`. -/
theorem writeWhileBusyFaults : Obligations.WriteWhileBusyFaults := by
  intro s off v rest hbusy hoff hmove
  exact (step_fault_iff s _).2 ⟨hbusy, rest, off, v, rfl, hoff, .inl hmove⟩

end Sys2Proof.Machine
end

section
/-! PROOFS. The obligations about a command's operands (spec/10_state.md R34, R39;
spec/30_encoding.md R72; spec/70_reset_and_hazards.md R267): two states that agree on what a command
reads are completed in one way, each its own inputs kept. -/

namespace Sys2Proof.Machine

/-- Two outcomes are one completion, with the same report and outputs, of `s` and of `t`. -/
def CompleteAlike (s t : State) (r r' : Result State) : Prop :=
  ∃ st ei lns word rel, r = .next (s.complete st ei lns word rel) ∧
    r' = .next (t.complete st ei lns word rel)

/-- R37: the outputs do not depend on the state completed. -/
theorem complete_sameOutputs (s t : State) (st ei : Byte) (lns : List Byte) (word : Word128)
    (rel : Byte) : SameOutputs (s.complete st ei lns word rel) (t.complete st ei lns word rel) :=
  ⟨rfl, rfl, rfl, rfl, rfl, rfl⟩

theorem inList_take (s : State) {m n : Nat} (h : m ≤ n) : (s.inList n).take m = s.inList m := by
  rw [State.inList, State.inList, List.take_take, Nat.min_eq_left h]

section
variable {s t : State}

theorem finish_alike (lns : List Byte) (word : Word128) (rel : Byte) :
    CompleteAlike s t (finish s lns word rel) (finish t lns word rel) :=
  ⟨_, _, _, _, _, rfl, rfl⟩

theorem raise_alike (e : ErrKind) : CompleteAlike s t (raise s e) (raise t e) :=
  ⟨_, _, _, _, _, rfl, rfl⟩

theorem decodeLanes_alike {n m : Nat} (ts : Bool) (codes : Vector Byte n)
    (unpack : Vector Group n → Vector Byte m) :
    CompleteAlike s t (decodeLanes s ts codes unpack) (decodeLanes t ts codes unpack) := by
  simp only [decodeLanes]
  split
  · exact raise_alike _
  · exact finish_alike _ _ _

/-- R34: the lanes below `IN_LEN` agree, so every slice of them does. -/
theorem lanes_inp_eq {n k : Nat} (hn : 0 + n ≤ 26) (hk : n ≤ k) (h : t.inList k = s.inList k) :
    lanes t.inp 0 n hn = lanes s.inp 0 n hn :=
  lanes_of_inList hn (by rw [toList_lanes_inp, ← inList_take t hk, h, inList_take s hk])

/-- A length check on equal lengths raises in both states, or goes on in both with lanes that
agree. -/
theorem lengthCheck_alike
    (hin : t.inLen = s.inLen ∧ t.inList s.inLen.toNat = s.inList s.inLen.toNat)
    {n : Byte} {r r' : Result State}
    (h : (∀ {m : Nat} (hm : 0 + m ≤ 26), m ≤ n.toNat → lanes t.inp 0 m hm = lanes s.inp 0 m hm) →
      CompleteAlike s t r r') :
    CompleteAlike s t (if s.inLen ≠ n then raise s .length else r)
      (if t.inLen ≠ n then raise t .length else r') := by
  obtain ⟨hlen, hlist⟩ := hin
  rw [hlen]
  split
  · exact raise_alike _
  · next hn =>
    obtain rfl := not_not.1 hn
    exact h fun hm hk => lanes_inp_eq hm hk hlist

/-- R39: a command reads its operands and nothing else. -/
theorem exec_alike {i : Instr} (h : SameOperands i s t) :
    CompleteAlike s t (exec i s) (exec i t) := by
  obtain ⟨hin, hts, hint, hid⟩ := h
  cases i with
  | intToBytes =>
    rw [exec_intToBytes, exec_intToBytes, hint rfl]
    exact finish_alike _ _ _
  | cmp =>
    obtain ⟨hlen, hlist⟩ := hin nofun
    rw [exec_cmp, exec_cmp, hid rfl, hlen, hlist]
    split
    · exact raise_alike _
    · exact finish_alike _ _ _
  | tsPack =>
    refine lengthCheck_alike (hin nofun) fun hlanes => ?_
    rw [hlanes _ (by decide), hts rfl]
    split
    · exact raise_alike _
    · exact finish_alike _ _ _
  | dec =>
    rw [exec_dec, exec_dec]
    refine lengthCheck_alike (hin nofun) fun hlanes => ?_
    rw [hlanes _ (by decide)]
    exact decodeLanes_alike _ _ _
  | decTs =>
    refine lengthCheck_alike (hin nofun) fun hlanes => ?_
    rw [hlanes _ (by decide)]
    exact decodeLanes_alike _ _ _
  | decRand =>
    refine lengthCheck_alike (hin nofun) fun hlanes => ?_
    rw [hlanes _ (by decide)]
    exact decodeLanes_alike _ _ _
  | encTs =>
    refine lengthCheck_alike (hin nofun) fun hlanes => ?_
    rw [hlanes _ (by decide)]
    exact finish_alike _ _ _
  | encRand =>
    refine lengthCheck_alike (hin nofun) fun hlanes => ?_
    rw [hlanes _ (by decide)]
    exact finish_alike _ _ _
  | enc =>
    refine lengthCheck_alike (hin nofun) fun hlanes => ?_
    rw [hlanes _ (by decide)]
    exact finish_alike _ _ _
  | tsUnpack =>
    refine lengthCheck_alike (hin nofun) fun hlanes => ?_
    rw [hlanes _ (by decide)]
    exact finish_alike _ _ _
  | bytesToInt =>
    refine lengthCheck_alike (hin nofun) fun hlanes => ?_
    rw [hlanes _ (by decide)]
    exact finish_alike _ _ _

theorem SameInputs.sameOperands (h : SameInputs s t) (i : Instr) : SameOperands i s t :=
  ⟨fun _ => ⟨h.inLen, by rw [State.inList, h.inp, State.inList]⟩, fun _ => h.tsIn,
    fun _ => h.intIn, fun _ => h.ident⟩

/-- R261: the unit reads the input registers alone. -/
theorem unitStep_alike (h : SameInputs s t) : CompleteAlike s t (unitStep s) (unitStep t) := by
  simp only [unitStep, h.cmd]
  split
  · exact exec_alike (h.sameOperands _)
  · exact raise_alike _

end

/-! ### The obligations -/

/-- Settles O31: one completion of two states leaves one set of outputs. -/
theorem outputsDependOnOperandsOnly : Obligations.OutputsDependOnOperandsOnly := by
  intro i s t u w hsame hu hw
  obtain ⟨st, ei, lns, word, rel, hs, ht⟩ := exec_alike hsame
  cases hs.symm.trans hu
  cases ht.symm.trans hw
  exact complete_sameOutputs s t st ei lns word rel

/-- Settles O32: a command's own result has the inputs it read, so it is completed as the state
before was, by the same values. -/
theorem repeatingCommandChangesNothing : Obligations.RepeatingCommandChangesNothing := by
  intro i s t ht
  obtain ⟨_, _, _, _, _, hnext⟩ := exec_next i s
  have hinputs : SameInputs s t := by
    cases hnext.symm.trans ht
    exact complete_sameInputs _ _ _ _ _ _
  obtain ⟨st, ei, lns, word, rel, hs, hagain⟩ := exec_alike (hinputs.sameOperands i)
  cases hs.symm.trans ht
  exact hagain

end Sys2Proof.Machine
end

section
/-! PROOFS. The obligations about an access of the window (spec/20_memory.md R50 to R53, R59;
spec/70_reset_and_hazards.md R265): what a write at an RW offset and what a read leave. -/

namespace Sys2Proof.Machine

/-- R50: the window shows the registers alone. -/
theorem window_congr {s t : State} (hin : SameInputs s t) (hout : SameOutputs s t) (o : Offset) :
    t.window o = s.window o := by
  simp only [State.window]
  cases locate o <;>
    simp only [State.readLoc, hin.cmd, hin.inLen, hin.tsIn, hin.intIn, hin.inp, hin.ident,
      hout.status, hout.errInfo, hout.outLen, hout.cmpOut, hout.wordOut, hout.out]

/-- R53: a stored byte is read at its offset. -/
theorem window_writeLoc_same (s : State) {off : Offset} (v : Byte) (h : (locate off).access = .rw) :
    (s.writeLoc (locate off) v).window off = v := readLoc_writeLoc_same s _ v h

/-- R53: a stored byte is read at no other offset. -/
theorem window_writeLoc_other (s : State) {off o : Offset} (v : Byte)
    (h : (locate off).access = .rw) (hne : o ≠ off) :
    (s.writeLoc (locate off) v).window o = s.window o := by
  refine readLoc_writeLoc_other s _ _ v fun hloc => hne (locate_inj hloc fun hres => ?_)
  rw [← hloc, hres] at h
  cases h

/-- Settles O41: `write_step` stores the byte at the offset's place, which no other offset
shares. -/
theorem hostWriteStoresByte : Obligations.HostWriteStoresByte := by
  intro s off v rest hidle hoff hhost
  have hrw := (access_rw_iff off).2 hoff
  set s' : State := { s.tick with host := rest }
  have hkeep : ∀ o, s'.window o = s.window o :=
    window_congr ⟨rfl, rfl, rfl, rfl, rfl, rfl⟩ ⟨rfl, rfl, rfl, rfl, rfl, rfl⟩
  obtain ⟨h1, h2, h3, h4, h5, h6⟩ := writeLoc_sameOutputs s' (locate off) v
  exact ⟨_, write_step hidle hrw hhost, window_writeLoc_same s' v hrw,
    fun o ho => (window_writeLoc_other s' v hrw ho).trans (hkeep o),
    ⟨h1, h2, h3, h4, h5, h6⟩, s'.writeLoc_host _ v⟩

/-- R52: only a read of an output while `BUSY = 1` need not give the byte at the offset. -/
theorem hostRead_value {s : State} {off : Offset} (h : s.busy = false ∨ ¬ outputOffset off) :
    (hostRead s off).1 = s.window off := by
  rcases h with hidle | hout
  · rw [hostRead_idle s off hidle]
  · rw [← isOutput_iff, Bool.not_eq_true] at hout
    simp only [hostRead, hout, Bool.false_and, Bool.false_eq_true, if_false, State.window]

/-- Settles O43: the read changes at most the counter of draws (`hostRead_state`); what it gives is
assigned to its variable. -/
theorem hostReadHasNoSideEffect : Obligations.HostReadHasNoSideEffect := by
  intro s off x rest ⟨hturn, hhost⟩
  set s' : State := { s.tick with host := rest }
  have hstep : step s = .next ((hostRead s' off).2.assign x (hostRead s' off).1) :=
    step_host hturn hhost
  rw [hostRead_state] at hstep
  refine ⟨_, (hostRead s' off).1, hstep, var_assign_same _ _ _, fun y hy => ?_,
    ⟨rfl, rfl, rfl, rfl, rfl, rfl⟩, ⟨rfl, rfl, rfl, rfl, rfl, rfl⟩, rfl, fun h => ?_⟩
  · rw [var_assign_other _ _ hy]
    rfl
  · rw [hostRead_value (s := s') h]
    exact window_congr ⟨rfl, rfl, rfl, rfl, rfl, rfl⟩ ⟨rfl, rfl, rfl, rfl, rfl, rfl⟩ off

end Sys2Proof.Machine
end

section
/-! PROOFS. The obligations about a command statement (spec/30_encoding.md R76, R77;
spec/70_reset_and_hazards.md R262): a `WAIT` polls until the latency has run out, the unit completes
the command on the registers as they then are, and the next poll ends. -/

namespace Sys2Proof.Machine

open Host (Core)

/-- R262: the unit's result does not depend on the latency left. -/
theorem unitStep_setWait {s u : State} {n : Nat} (h : unitStep { s with wait := n } = .next u) :
    unitStep s = .next { u with wait := s.wait } := by
  obtain ⟨st, ei, lns, word, rel, hs, hn⟩ :=
    unitStep_alike (s := s) (t := { s with wait := n }) ⟨rfl, rfl, rfl, rfl, rfl, rfl⟩
  cases hn.symm.trans h
  exact hs

/-- R76, R262: with `n` host steps of latency left, a `WAIT` ends after `n` polls, the unit's step
and one more poll. -/
theorem wait_run {rest : List HostAction} : ∀ (n : Nat) {s : State}, s.wait = n → s.busy = true →
    s.host = .wait :: rest → ∃ u, unitStep s = .next u ∧
      Core.run core (n + 2) s = .next { u with wait := 0, host := rest }
  | 0, s, hwait, hbusy, hhost => by
    obtain ⟨st, ei, lns, word, rel, hunit⟩ := unitStep_next s
    have hturn : s.unitTurn = true := by simp [State.unitTurn, hbusy, hwait]
    refine ⟨_, hunit, ?_⟩
    rw [run_succ ((step_unit hturn).trans hunit),
      run_one (wait_done (unitStep_not_busy hunit) hhost), State.complete_wait, hwait]
  | n + 1, s, hwait, hbusy, hhost => by
    have hturn : s.unitTurn = false := by simp [State.unitTurn, hwait, hhost]
    obtain ⟨u, hunit, hrun⟩ := wait_run n (s := { s with wait := n }) rfl hbusy hhost
    refine ⟨_, unitStep_setWait hunit, ?_⟩
    rw [run_succ (wait_poll hbusy hturn hhost), hwait]
    exact hrun

/-- Settles O46: the state `wait_run` ends in has the registers of the unit's own result. -/
theorem waitEndsAfterLatency : Obligations.WaitEndsAfterLatency := by
  intro s rest hbusy hhost
  obtain ⟨u, hunit, hrun⟩ := wait_run s.wait rfl hbusy hhost
  have hdone := unitStep_not_busy hunit
  exact ⟨_, u, hrun, rfl, hdone, hunit, ⟨rfl, rfl, rfl, rfl, rfl, rfl⟩,
    ⟨rfl, rfl, rfl, rfl, rfl, rfl⟩⟩

/-- R76, R77: the write of `CMD` and the `START` take two steps, and leave the command in flight
with the inputs as they were. -/
theorem command_started {s : State} {i : Instr} {rest : List HostAction} (hidle : s.busy = false)
    (hhost : s.host = (HostStmt.command i).expand ++ rest) :
    ∃ t, Core.run core 2 s = .next t ∧ t.busy = true ∧ t.host = .wait :: rest ∧ t.vars = s.vars ∧
      SameInputs { s with cmd := encode i } t := by
  have hwrite := write_step (off := offCmd) (v := encode i) (rest := .start :: .wait :: rest) hidle
    (by rw [locate_cmd, Loc.access]) hhost
  rw [locate_cmd] at hwrite
  have hstart := start_step
    (s := ({ s.tick with host := .start :: .wait :: rest } : State).writeLoc .cmd (encode i))
    (rest := .wait :: rest) hidle rfl
  exact ⟨_, (run_succ hwrite).trans (run_one hstart), State.start_busy _, rfl, rfl, rfl, rfl, rfl,
    rfl, rfl, rfl⟩

/-- Settles O47: after the start (`command_started`) the `WAIT` ends with the unit's result
(`wait_run`), which is `exec`'s on the same inputs. -/
theorem commandStatementRunsCommand : Obligations.CommandStatementRunsCommand := by
  intro s i rest hidle hhost
  obtain ⟨t, hrun, hbusy, hwaiting, hvars, hinputs⟩ := command_started hidle hhost
  obtain ⟨u, hunit, hwait⟩ := wait_run t.wait rfl hbusy hwaiting
  have hdecode : decode t.cmd = .ok i := hinputs.cmd ▸ decode_encode i
  obtain ⟨st, ei, lns, word, rel, hexec, ht⟩ := exec_alike (hinputs.sameOperands i)
  cases (ht.symm.trans (unitStep_of_decode_ok hdecode).symm).trans hunit
  have hdone := unitStep_not_busy hunit
  exact ⟨2 + (t.wait + 2), _, _, (run_add hrun).trans hwait, rfl, hdone, hvars, hexec,
    ⟨hinputs.cmd, hinputs.inLen, hinputs.tsIn, hinputs.intIn, hinputs.inp, hinputs.ident⟩,
    ⟨rfl, rfl, rfl, rfl, rfl, rfl⟩⟩

end Sys2Proof.Machine
end

section
/-! PROOFS. The obligations about the operand and result statements (spec/30_encoding.md R78;
spec/20_memory.md R57, R65): a block of writes changes the register it covers, byte by byte, and no
other; a block of reads changes host variables alone. -/

namespace Sys2Proof.Machine

open Host (Core)

/-! ### Registers from the window -/

theorem window_cmd (s : State) : s.window offCmd = s.cmd := by
  simp only [State.window, locate_cmd, State.readLoc]

theorem window_inLen (s : State) : s.window offInLen = s.inLen := by
  simp only [State.window, locate_inLen, State.readLoc]

/-- The window outside the `n` offsets from `b` on is unchanged from `s` to `t`. -/
def SameOutside (b n : Nat) (s t : State) : Prop :=
  ∀ o : Offset, o.toNat < b ∨ b + n ≤ o.toNat → t.window o = s.window o

section
variable {b n : Nat} {s t : State} (h : SameOutside b n s t)
include h

theorem SameOutside.cmd (hb : 0 < b) : t.cmd = s.cmd := by
  rw [← window_cmd t, ← window_cmd s]
  exact h offCmd (.inl hb)

theorem SameOutside.inLen (hb : 1 < b) : t.inLen = s.inLen := by
  rw [← window_inLen t, ← window_inLen s]
  exact h offInLen (.inl hb)

/-- An array of `m` registers from `b'` on, clear of the block. -/
theorem SameOutside.array {b' m : Nat} (hb : b' + m ≤ b ∨ b + n ≤ b') (hm : b' + m ≤ 128) :
    ∀ k < m, t.window (BitVec.ofNat 7 (b' + k)) = s.window (BitVec.ofNat 7 (b' + k)) := by
  intro k hk
  refine h _ ?_
  rw [toNat_offset b' k (by omega)]
  omega

theorem SameOutside.tsIn (hb : 0x10 ≤ b ∨ b + n ≤ 0x08) : t.tsIn = s.tsIn :=
  tsIn_of_window (h.array (b' := 0x08) hb (by decide))

theorem SameOutside.intIn (hb : 0x20 ≤ b ∨ b + n ≤ 0x10) : t.intIn = s.intIn :=
  intIn_of_window (h.array (b' := 0x10) hb (by decide))

theorem SameOutside.inp (hb : 0x3A ≤ b ∨ b + n ≤ 0x20) : t.inp = s.inp :=
  inp_of_window (h.array (b' := 0x20) hb (by decide))

theorem SameOutside.ident (hb : 0x50 ≤ b ∨ b + n ≤ 0x40) : t.ident = s.ident :=
  ident_of_window (h.array (b' := 0x40) hb (by decide))

end

/-- R78: a block of writes stores its bytes one by one and leaves the window outside it. -/
theorem writeBlock_run {f : Nat → Offset} {b : Nat} {xs : List Byte} {s : State}
    {rest : List HostAction} (hf : ∀ i, f i = BitVec.ofNat 7 (b + i)) (hlen : b + xs.length ≤ 128)
    (hrw : ∀ i < xs.length, (locate (f i)).access = .rw) (hidle : s.busy = false)
    (hhost : s.host = writeEach f xs ++ rest) :
    ∃ t : State, Core.run core xs.length s = .next t ∧ Loaded s t rest ∧
      (∀ i, ∀ h : i < xs.length, t.window (f i) = xs[i]) ∧ SameOutside b xs.length s t := by
  obtain ⟨t, hrun, hloaded, hbytes, hkeep⟩ := writeEach_run f xs b s rest hf hlen hidle hhost hrw
  refine ⟨t, hrun, hloaded, hbytes, fun o ho => hkeep o fun i hi => ?_⟩
  rw [hf]
  exact ne_offset (by omega) (by omega)

/-! ### `LDIN` and `LDLEN` -/

/-- R65: the presented length is the length up to 255, and 255 from there on. -/
theorem toNat_presentLength (n : Nat) : (presentLength n).toNat = min n 255 := by
  rw [presentLength, BitVec.toNat_ofNat]
  omega

/-- R78: `LDLEN` is the one write of `IN_LEN`. -/
theorem ldlen_step {s : State} {n : Byte} {rest : List HostAction} (hidle : s.busy = false)
    (hhost : s.host = .wrb offInLen n :: rest) :
    step s = .next { s.tick with host := rest, inLen := n } := by
  rw [write_step hidle (by rw [locate_inLen, Loc.access]) hhost, locate_inLen]
  rfl

/-- R78: `LDIN` writes `IN_LEN`, then its lanes. -/
theorem ldin_run {s : State} {xs : List Byte} {rest : List HostAction} (hlen : xs.length ≤ 26)
    (hidle : s.busy = false)
    (hhost : s.host = .wrb offInLen (presentLength xs.length) :: writeEach offIn xs ++ rest) :
    ∃ t : State, Core.run core (xs.length + 1) s = .next t ∧ t.host = rest ∧
      t.inLen.toNat = xs.length ∧
      (∀ i < 26, t.inLane i = if i < xs.length then xs.getD i 0x00 else s.inLane i) ∧
      t.cmd = s.cmd ∧ t.tsIn = s.tsIn ∧ t.intIn = s.intIn ∧ t.ident = s.ident ∧
      SameOutputs s t := by
  have hrw : ∀ i < xs.length, (locate (offIn i)).access = .rw := fun i hi => by
    rw [locate_in ⟨i, by omega⟩, Loc.access]
  set s1 : State :=
    { s.tick with host := writeEach offIn xs ++ rest, inLen := presentLength xs.length }
  obtain ⟨t, hrun, hloaded, hbytes, hsame⟩ :=
    writeBlock_run (f := offIn) (s := s1) (fun _ => rfl) (by omega) hrw hidle rfl
  have hlanes : ∀ i < 26, t.inLane i = if i < xs.length then xs.getD i 0x00 else s.inLane i := by
    intro i hi
    rw [← window_in t hi]
    split
    · next hx => rw [hbytes i hx, List.getD_eq_getElem _ _ hx]
    · next hx =>
      refine (hsame (offIn i) (.inr ?_)).trans (window_in s1 hi)
      rw [offIn, toNat_offset 0x20 i (by omega)]
      omega
  obtain ⟨h1, h2, h3, h4, h5, h6⟩ := hloaded.out
  refine ⟨t, (run_succ (ldlen_step hidle hhost)).trans hrun, hloaded.host, ?_, hlanes,
    hsame.cmd (by decide), hsame.tsIn (.inl (by decide)), hsame.intIn (.inl (by decide)),
    hsame.ident (.inr (by omega)), ⟨h1, h2, h3, h4, h5, h6⟩⟩
  rw [hsame.inLen (by decide), toNat_presentLength]
  omega

/-- Settles O48: `ldin_run`, on the bytes or on the codes of the string, and the one step of
`LDLEN`. -/
theorem ldinLoadsLanes : Obligations.LdinLoadsLanes := by
  refine fun s rest hidle => ⟨fun p xs hwf hp hhost => ?_, fun n hhost => ?_⟩
  · rcases hp with rfl | ⟨cs, rfl, rfl⟩
    · exact ldin_run (of_decide_eq_true hwf) hidle hhost
    · rw [HostStmt.wf, Bool.and_eq_true] at hwf
      refine ldin_run ?_ hidle ?_
      · rw [List.length_map]
        exact of_decide_eq_true hwf.1
      · rw [List.length_map]
        exact hhost
  · exact ⟨_, run_one (ldlen_step hidle hhost), rfl, rfl, rfl, rfl, rfl, rfl, rfl,
      ⟨rfl, rfl, rfl, rfl, rfl, rfl⟩⟩

/-! ### `LDID`, `LDTS` and `LDINT` -/

/-- R57: a word whose image is the big-endian form of a value holds the value. -/
theorem toNat_of_getByte {n v : Nat} (w : BitVec (8 * n))
    (h : ∀ i, ∀ hi : i < n, getByte w (8 * (n - 1 - i)) = (bigEndianBytes n v)[i]) :
    w.toNat = v % 256 ^ n := by
  have hbytes : bigEndianBytes n w.toNat = bigEndianBytes n v := Vector.ext fun i hi => by
    rw [← getByte_eq_bigEndianBytes n w i hi rfl, h i hi]
  have hvalue := congrArg (fun b : Vector Byte n => bigEndian b.toList) hbytes
  simp only [bigEndian_bigEndianBytes] at hvalue
  rwa [Nat.mod_eq_of_lt (by rw [show 256 = 2 ^ 8 from rfl, ← Nat.pow_mul]; exact w.isLt)] at hvalue

/-- R78: `LDID` writes the sixteen bytes of `ID`. -/
theorem ldid_run {s : State} {xs : List Byte} {rest : List HostAction} (hlen : xs.length = 16)
    (hidle : s.busy = false) (hhost : s.host = writeEach offId xs ++ rest) :
    ∃ t : State, Core.run core 16 s = .next t ∧ t.host = rest ∧ t.ident.toList = xs ∧
      t.cmd = s.cmd ∧ t.inLen = s.inLen ∧ t.tsIn = s.tsIn ∧ t.intIn = s.intIn ∧
      t.inp = s.inp ∧ SameOutputs s t := by
  have hrw : ∀ i < xs.length, (locate (offId i)).access = .rw := fun i hi => by
    rw [locate_id ⟨i, by omega⟩, Loc.access]
  obtain ⟨t, hrun, hloaded, hbytes, hsame⟩ :=
    writeBlock_run (f := offId) (fun _ => rfl) (by omega) hrw hidle hhost
  rw [hlen] at hrun hsame
  refine ⟨t, hrun, hloaded.host, List.ext_getElem (by simp [hlen]) fun i h1 h2 => ?_,
    hsame.cmd (by decide), hsame.inLen (by decide), hsame.tsIn (by decide),
    hsame.intIn (by decide), hsame.inp (by decide), hloaded.out⟩
  rw [Vector.getElem_toList, ← window_id t (by omega), hbytes i h2]

/-- R57, R78: writing the big-endian form of a value over the offsets of a word register loads the
value. -/
theorem writeWord_run {f : Nat → Offset} {b n v : Nat} {word : State → BitVec (8 * n)} {s : State}
    {rest : List HostAction} (hf : ∀ i, f i = BitVec.ofNat 7 (b + i)) (hlen : b + n ≤ 128)
    (hrw : ∀ i < n, (locate (f i)).access = .rw)
    (hword : ∀ t : State, ∀ i < n, t.window (f i) = getByte (word t) (8 * (n - 1 - i)))
    (hidle : s.busy = false) (hhost : s.host = writeEach f (bigEndianBytes n v).toList ++ rest) :
    ∃ t : State, Core.run core n s = .next t ∧ Loaded s t rest ∧
      (word t).toNat = v % 256 ^ n ∧ SameOutside b n s t := by
  have hcount : (bigEndianBytes n v).toList.length = n := Vector.length_toList
  obtain ⟨t, hrun, hloaded, hbytes, hsame⟩ :=
    writeBlock_run hf (hcount.symm ▸ hlen) (hcount.symm ▸ hrw) hidle hhost
  rw [hcount] at hrun hsame
  refine ⟨t, hrun, hloaded, toNat_of_getByte _ fun i hi => ?_, hsame⟩
  rw [← hword t i hi, hbytes i (hcount.symm ▸ hi), Vector.getElem_toList]

/-- R12: a 64-bit word that holds `v mod 2^64` reads as `v` in two's complement. -/
theorem toInt_of_toNat_emod {w : Word64} {v : Int} (hlo : -2 ^ 63 ≤ v) (hhi : v < 2 ^ 63)
    (h : w.toNat = (v % 2 ^ 64).toNat % 2 ^ 64) : w.toInt = v := by
  rw [BitVec.toInt_eq_toNat_cond, h]
  omega

/-- Settles O49: each statement is one block of writes; a value in the statement's range is the
value the bytes hold. -/
theorem operandStatementsLoadRegisters : Obligations.OperandStatementsLoadRegisters := by
  refine fun s rest hidle => ⟨fun xs hwf hhost => ldid_run (of_decide_eq_true hwf) hidle hhost,
    fun v hwf hhost => ?_, fun v hwf hhost => ?_⟩
  · obtain ⟨hlo, hhi⟩ := of_decide_eq_true hwf
    obtain ⟨t, hrun, hloaded, hvalue, hsame⟩ := writeWord_run
      (f := offTsIn) (n := 8) (word := State.tsIn)
      (fun _ => rfl) (by decide) (fun i hi => by rw [locate_tsIn ⟨i, hi⟩, Loc.access])
      (fun t i hi => by rw [window_tsIn t hi, show 56 - 8 * i = 8 * (8 - 1 - i) by omega])
      hidle hhost
    exact ⟨t, hrun, hloaded.host, toInt_of_toNat_emod hlo hhi hvalue, hsame.cmd (by decide),
      hsame.inLen (by decide), hsame.intIn (by decide), hsame.inp (by decide),
      hsame.ident (by decide), hloaded.out⟩
  · obtain ⟨t, hrun, hloaded, hvalue, hsame⟩ := writeWord_run
      (f := offIntIn) (n := 16) (word := State.intIn)
      (fun _ => rfl) (by decide) (fun i hi => by rw [locate_intIn ⟨i, hi⟩, Loc.access])
      (fun t i hi => by rw [window_intIn t hi, show 120 - 8 * i = 8 * (16 - 1 - i) by omega])
      hidle hhost
    exact ⟨t, hrun, hloaded.host, hvalue.trans (Nat.mod_eq_of_lt (of_decide_eq_true hwf)),
      hsame.cmd (by decide), hsame.inLen (by decide), hsame.tsIn (by decide),
      hsame.inp (by decide), hsame.ident (by decide), hloaded.out⟩

/-! ### `RDOUT` and `RDWORD` -/

/-- R78: a block of reads assigns the bytes of the window and changes no register. -/
theorem readBlock_run {f : Nat → Offset} {n : Nat} {name : String} {s : State}
    {rest : List HostAction} (hidle : s.busy = false) (hhost : s.host = readEach f n name ++ rest) :
    ∃ t : State, Core.run core n s = .next t ∧ t.host = rest ∧
      (∀ i < n, t.var ⟨name, i⟩ = some (s.window (f i))) ∧ SameInputs s t ∧ SameOutputs s t := by
  rw [readEach, List.range_eq_range'] at hhost
  obtain ⟨t, hrun, hrest, -, hin, hout, hvars, -⟩ := readEach_run f name n 0 s rest hidle hhost
  exact ⟨t, hrun, hrest, fun i hi => hvars i (Nat.zero_le i) (by omega), hin, hout⟩

theorem mapM_eq_some_map {α β : Type} {f : α → Option β} {g : α → β} :
    ∀ {l : List α}, (∀ x ∈ l, f x = some (g x)) → l.mapM f = some (l.map g)
  | [], _ => rfl
  | a :: l, h => by
    rw [List.mapM_cons, h a List.mem_cons_self,
      mapM_eq_some_map fun x hx => h x (List.mem_cons_of_mem a hx)]
    rfl

/-- Settles O50: the bytes read are those of `OUT`, or the image of `WORD_OUT`, whose value is the
word's. -/
theorem resultStatementsReadOutputs : Obligations.ResultStatementsReadOutputs := by
  refine fun s rest name hidle => ⟨fun n hwf hhost => ?_, fun hhost => ?_⟩
  · have hn : n ≤ 26 := of_decide_eq_true hwf
    obtain ⟨t, hrun, hrest, hvars, hin, hout⟩ := readBlock_run hidle hhost
    refine ⟨t, hrun, hrest, fun i hi => ?_, hin, hout⟩
    rw [hvars i hi, window_out s (by omega)]
    simp [show i < 26 by omega]
  · obtain ⟨t, hrun, hrest, hvars, hin, hout⟩ := readBlock_run hidle hhost
    refine ⟨t, hrun, hrest, ?_, hin, hout⟩
    have himage : (List.range 16).map (fun k => s.window (offWordOut k)) =
        (bigEndianBytes 16 s.wordOut.toNat).toList := (wordRegistersAreBigEndian s).2.2
    rw [State.wordVar, mapM_eq_some_map fun k hk => hvars k (List.mem_range.1 hk), himage,
      Option.map_some, bigEndian_bigEndianBytes]
    exact congrArg some (Nat.mod_eq_of_lt s.wordOut.isLt)

/-- Settles O51: the presented length is the smaller of the length and 255. -/
theorem presentedLengthStaysWrong : Obligations.PresentedLengthStaysWrong := by
  intro n
  have hvalue := toNat_presentLength n
  refine ⟨fun k hk => ?_, ?_, fun hn => ?_⟩
  · rw [← BitVec.toNat_inj, hvalue, BitVec.toNat_ofNat]
    omega
  · rw [hvalue]
    omega
  · exact BitVec.eq_of_toNat_eq (hvalue.trans (Nat.min_eq_right hn))

end Sys2Proof.Machine
end

section
/-! PROOFS. The obligations about a program of command and operand statements
(spec/30_encoding.md R77 to R79; spec/70_reset_and_hazards.md R262 to R264): each statement runs
from idle to idle, so the program comes to its end, and a run that ends has not stopped on the way. -/

namespace Sys2Proof.Machine

open Host (Core)

/-- Some number of steps does `acts`, the host's first actions, and leaves the block idle. -/
def RunsFromIdle (acts : List HostAction) : Prop :=
  ∀ (s : State) (rest : List HostAction), s.busy = false → s.host = acts ++ rest →
    ∃ (k : Nat) (t : State), Core.run core k s = .next t ∧ t.host = rest ∧ t.busy = false

/-- R77, R78: a well-formed command, operand or result statement runs from idle to idle. -/
theorem pseudo_runsFromIdle {p : HostStmt} (hpseudo : p.Pseudo) (hwf : p.wf = true) :
    RunsFromIdle p.expand := by
  intro s rest hidle hhost
  have idleOf : ∀ {t : State}, SameOutputs s t → t.busy = false := fun h => h.busy.trans hidle
  cases p with
  | basic a => exact absurd rfl (hpseudo a)
  | command i =>
    obtain ⟨k, t, -, hrun, hrest, hbusy, -⟩ := commandStatementRunsCommand s i rest hidle hhost
    exact ⟨k, t, hrun, hrest, hbusy⟩
  | ldinString cs =>
    obtain ⟨t, hrun, hrest, -, -, -, -, -, -, hout⟩ :=
      (ldinLoadsLanes s rest hidle).1 _ _ hwf (.inr ⟨cs, rfl, rfl⟩) hhost
    exact ⟨_, t, hrun, hrest, idleOf hout⟩
  | ldinBytes xs =>
    obtain ⟨t, hrun, hrest, -, -, -, -, -, -, hout⟩ :=
      (ldinLoadsLanes s rest hidle).1 _ _ hwf (.inl rfl) hhost
    exact ⟨_, t, hrun, hrest, idleOf hout⟩
  | ldlen n => exact ⟨1, _, run_one (ldlen_step hidle hhost), rfl, hidle⟩
  | ldid xs =>
    obtain ⟨t, hrun, hrest, -, -, -, -, -, -, hout⟩ :=
      (operandStatementsLoadRegisters s rest hidle).1 xs hwf hhost
    exact ⟨_, t, hrun, hrest, idleOf hout⟩
  | ldts v =>
    obtain ⟨t, hrun, hrest, -, -, -, -, -, -, hout⟩ :=
      (operandStatementsLoadRegisters s rest hidle).2.1 v hwf hhost
    exact ⟨_, t, hrun, hrest, idleOf hout⟩
  | ldint v =>
    obtain ⟨t, hrun, hrest, -, -, -, -, -, -, hout⟩ :=
      (operandStatementsLoadRegisters s rest hidle).2.2 v hwf hhost
    exact ⟨_, t, hrun, hrest, idleOf hout⟩
  | rdout n name =>
    obtain ⟨t, hrun, hrest, -, -, hout⟩ := readBlock_run hidle hhost
    exact ⟨_, t, hrun, hrest, idleOf hout⟩
  | rdword name =>
    obtain ⟨t, hrun, hrest, -, -, hout⟩ := readBlock_run hidle hhost
    exact ⟨_, t, hrun, hrest, idleOf hout⟩

theorem runsFromIdle_append {as bs : List HostAction} (ha : RunsFromIdle as)
    (hb : RunsFromIdle bs) : RunsFromIdle (as ++ bs) := by
  intro s rest hidle hhost
  obtain ⟨j, t, hrun, hrest, hbusy⟩ := ha s (bs ++ rest) hidle (hhost.trans (List.append_assoc ..))
  obtain ⟨k, u, hrun', hrest', hbusy'⟩ := hb t rest hbusy hrest
  exact ⟨j + k, u, (run_add hrun).trans hrun', hrest', hbusy'⟩

theorem expandProgram_runsFromIdle : ∀ {p : List HostStmt},
    (∀ x ∈ p, x.Pseudo ∧ x.wf = true) → RunsFromIdle (expandProgram p)
  | [], _ => fun s _ hidle hhost => ⟨0, s, run_zero s, hhost, hidle⟩
  | x :: p, h => by
    obtain ⟨hpseudo, hwf⟩ := h x List.mem_cons_self
    exact runsFromIdle_append (pseudo_runsFromIdle hpseudo hwf)
      (expandProgram_runsFromIdle fun y hy => h y (List.mem_cons_of_mem x hy))

/-- Settles O53: the whole expansion runs from idle to idle, with no action left. -/
theorem statementProgramsReachEnd : Obligations.StatementProgramsReachEnd := by
  intro s p hidle hp
  obtain ⟨k, t, hrun, hrest, hbusy⟩ := expandProgram_runsFromIdle hp (s.loadProgram p) [] hidle
    (List.append_nil _).symm
  exact ⟨k, t, hrun, hrest, hbusy⟩

/-- Settles O52: the run comes to its end, and a run that does is safe. -/
theorem statementProgramsNeverStop : Obligations.StatementProgramsNeverStop := by
  intro s p hidle hp
  obtain ⟨k, t, hrun, hfinal⟩ := statementProgramsReachEnd s p hidle hp
  exact safe_of_run_final hrun hfinal

end Sys2Proof.Machine
end

section
/-! PROOFS. The obligations about whole identifiers (spec/40_encode.md R100, R105, R106;
spec/41_decode.md R123, R124, R128 to R130): the encoders write, and the decoders read, the base-32
numeral of the big-endian value, so each undoes the other. -/

namespace Sys2Proof.Machine

/-! ### The encoders -/

/-- R100, R105: groups that hold a value's digits are written as the characters of its numeral. -/
theorem toList_map_encodeChar_eq_digits {n V : Nat} {g : Vector Group n}
    (h : base32Value (groupValues g) = V) :
    (mapLanes encodeChar g).toList = (base32Digits n V).map charOf := by
  rw [toList_map_encodeChar, groupValues_eq_base32Digits, h]

/-- Settles O10: the tables of R100 and R104 pack the value of all the bytes. -/
theorem encodersWriteWholeValueNumeral : Obligations.EncodersWriteWholeValueNumeral := by
  refine fun s => ⟨(lengthCheck_completes s 6 (by simp) ?_).2,
    (lengthCheck_completes s 16 (by simp) ?_).2⟩
  · rw [← toList_lanes_inp s 6 (by decide),
      ← toList_map_encodeChar_eq_digits (base32Value_packTimestamp _)]
    rfl
  · rw [← toList_lanes_inp s 16 (by decide),
      ← toList_map_encodeChar_eq_digits (base32Value_packIdentifier _), ← encodeIdentifier_eq]
    rfl

theorem encodeChar_mem_encodeRom (g : Group) : encodeChar g ∈ encodeRom.toList := by
  rw [mem_encodeRom_iff, lookup_encodeChar]
  rfl

/-- R106: a command that writes characters of groups, after its length check, writes alphabet codes
below `OUT_LEN`; the error writes no lane. -/
theorem lengthCheck_writes_alphabet {s t : State} {n : Byte} {m : Nat} {g : Vector Group m}
    {o : Result State}
    (ho : o = if s.inLen ≠ n then raise s .length
      else finish s (mapLanes encodeChar g).toList 0 0x00) (ht : o = .next t) :
    ∀ k : Fin 26, k.val < t.outLen.toNat → t.out[k] ∈ encodeRom.toList := by
  intro k hk
  have hnext := ho.symm.trans ht
  split at hnext
  · cases hnext
    exact absurd hk (Nat.not_lt_zero _)
  · cases hnext
    have hkm : k.val < m := by
      refine Nat.lt_of_lt_of_le hk ?_
      rw [State.complete_outLen, BitVec.toNat_ofNat, Vector.length_toList]
      exact Nat.mod_le _ _
    rw [Fin.getElem_fin, getElem_complete_out, List.getD_eq_getElem _ _ (by simpa using hkm),
      Vector.getElem_toList, getElem_mapLanes]
    exact encodeChar_mem_encodeRom _

/-- Settles O11: each encode command writes characters of groups. -/
theorem encodersWriteAlphabetOnly : Obligations.EncodersWriteAlphabetOnly := by
  rintro i s t (rfl | rfl | rfl) ht
  · exact lengthCheck_writes_alphabet rfl ht
  · exact lengthCheck_writes_alphabet rfl ht
  · have henc : exec .enc s = if s.inLen ≠ 16 then raise s .length
        else finish s (mapLanes encodeChar (packIdentifier (lanes s.inp 0 16))).toList 0 0x00 := by
      rw [← encodeIdentifier_eq]
      rfl
    exact lengthCheck_writes_alphabet henc ht

/-! ### The decoders -/

/-- R13: bytes of a given big-endian value are that value's bytes. -/
theorem toList_eq_bigEndianBytes {n V : Nat} {b : Vector Byte n} (h : bigEndian b.toList = V) :
    b.toList = (bigEndianBytes n V).toList := by
  rw [← h, bigEndianBytes_bigEndian]

/-- Settles O15: the bytes unpacked from the groups of the values have the numeral's value. -/
theorem decodersReadWholeValueNumeral : Obligations.DecodersReadWholeValueNumeral := by
  intro s v
  refine ⟨fun hlen hv h0 => decode_spells (exec_decTs s) hlen hv (fun _ => h0) (by decide) ?_,
    fun hlen hv => decode_spells (exec_decRand s) hlen hv nofun (by decide) ?_,
    fun hlen hv h0 => decode_spells (exec_dec s) hlen hv (fun _ => h0) (by decide) ?_⟩
  · refine toList_eq_bigEndianBytes ?_
    rw [bigEndian_unpackTimestamp _ (groupsOfValues_zero (by decide) h0),
      groupValues_groupsOfValues fun k hk => (hv k hk).1]
  · refine toList_eq_bigEndianBytes ?_
    rw [bigEndian_unpackRandomness, groupValues_groupsOfValues fun k hk => (hv k hk).1]
  · refine toList_eq_bigEndianBytes ?_
    rw [bigEndian_unpackIdentifier _ (groupsOfValues_zero (by decide) h0),
      groupValues_groupsOfValues fun k hk => (hv k hk).1]

section
variable {s : State} {len : Byte} {n m : Nat} {ts : Bool} {hn : 0 + n ≤ 26}
  {unpack : Vector Group n → Vector Byte m} {o : Result State}
  (ho : o = if s.inLen ≠ len then raise s .length
    else decodeLanes s ts (lanes s.inp 0 n hn) unpack)
include ho

/-- R210: a decode command that completes without error has scanned its lanes and unpacked their
values. -/
theorem decode_accepted {t : State} (ht : o = .next t) (hok : t.status = 0x01) :
    s.inLen = len ∧ ∃ v, validate ts (lanes s.inp 0 n hn) = .ok v ∧
      finish s (unpack v).toList 0 0x00 = .next t := by
  have hnext := ho.symm.trans ht
  split at hnext
  · exact absurd hok (raise_status hnext)
  · next hlen =>
    refine ⟨not_not.1 hlen, ?_⟩
    cases hv : validate ts (lanes s.inp 0 n hn) with
    | error e =>
      rw [decodeLanes_of_error s unpack hv] at hnext
      exact absurd hok (raise_status hnext)
    | ok v => exact ⟨v, rfl, (decodeLanes_of_ok s unpack hv).symm.trans hnext⟩

/-- R129: the accepted inputs are those of the right length that the scan accepts. -/
theorem decode_accepts_iff : (∃ t, o = .next t ∧ t.status = 0x01) ↔
    s.inLen = len ∧ ∃ v, validate ts (lanes s.inp 0 n hn) = .ok v := by
  constructor
  · rintro ⟨t, ht, hok⟩
    obtain ⟨hlen, v, hv, -⟩ := decode_accepted ho ht hok
    exact ⟨hlen, v, hv⟩
  · rintro ⟨hlen, v, hv⟩
    rw [ho, if_neg (not_not_intro hlen), decodeLanes_of_ok s unpack hv]
    exact ⟨_, rfl, rfl⟩

/-- R128: lanes that hold the characters of groups are decoded to the groups' bytes. -/
theorem decode_of_encoded (hlen : s.inLen = len) {g : Vector Group n}
    (hchars : s.inList n = (mapLanes encodeChar g).toList)
    (h0 : ts = true → ∀ hpos : 0 < n, g[0].toNat ≤ 7) (hm : m ≤ 26) :
    ∃ t, o = .next t ∧ Succeeds s t (unpack g).toList 0 0x00 := by
  rw [ho, if_neg (not_not_intro hlen), lanes_of_inList hn hchars,
    decodeLanes_of_ok s unpack (validate_mapLanes_encodeChar ts g h0)]
  exact finish_succeeds s _ 0 0x00 (by rwa [Vector.length_toList])

end

/-! ### Accepted inputs -/

theorem forall_mem_lanes_inp (s : State) {n : Nat} (hn : 0 + n ≤ 26) (P : Byte → Prop) :
    (∀ c ∈ (lanes s.inp 0 n hn).toList, P c) ↔ ∀ k < n, P (s.inLane k) := by
  have hlane : ∀ k, ∀ hk : k < n, (lanes s.inp 0 n hn).toList[k]'(by simpa using hk) = s.inLane k :=
    fun k hk => by simp [inLane_eq s k (by omega)]
  rw [List.forall_mem_iff_forall_getElem]
  constructor
  · intro h k hk
    exact hlane k hk ▸ h k (by simpa using hk)
  · intro h k hk
    have hk : k < n := by simpa using hk
    exact (hlane k hk).symm ▸ h k hk

theorem head?_lanes_inp (s : State) {n : Nat} (hn : 0 + n ≤ 26) (hpos : 0 < n) :
    (lanes s.inp 0 n hn).toList.head? = some (s.inLane 0) := by
  rw [List.head?_eq_getElem?, List.getElem?_eq_getElem (by simpa using hpos)]
  simp [inLane_eq]

/-- R121, R122: the scan accepts lanes of the alphabet, the first of a timestamp one of `0` to
`7`. -/
theorem validate_lanes_iff (s : State) (ts : Bool) {n : Nat} (hn : 0 + n ≤ 26) (hpos : 0 < n) :
    (∃ v, validate ts (lanes s.inp 0 n hn) = .ok v) ↔ (∀ k < n, s.inLane k ∈ encodeRom.toList) ∧
      (ts = true → s.inLane 0 ∈ encodeRom.toList.take 8) := by
  rw [validate_ok_iff, forall_mem_lanes_inp, head?_lanes_inp s hn hpos]
  simp only [← mem_encodeRom_iff]
  refine and_congr_right fun halphabet => imp_congr_right fun _ => ?_
  obtain ⟨g, hg⟩ := Option.isSome_iff_exists.1 ((mem_encodeRom_iff _).1 (halphabet 0 hpos))
  rw [mem_take_encodeRom_iff]
  simp [hg]

/-- Settles O16: the length check (`decode_accepts_iff`), then the scan (`validate_lanes_iff`). -/
theorem decodersAcceptExactly : Obligations.DecodersAcceptExactly := by
  refine fun s => ⟨(decode_accepts_iff (exec_decTs s)).trans ?_,
    (decode_accepts_iff (exec_decRand s)).trans ?_, (decode_accepts_iff (exec_dec s)).trans ?_⟩
  · simp only [validate_lanes_iff s true (n := 10) (by decide) (by decide), true_implies]
  · simp only [validate_lanes_iff s false (n := 16) (by decide) (by decide), Bool.false_eq_true,
      false_implies, and_true]
  · simp only [validate_lanes_iff s true (n := 26) (by decide) (by decide), true_implies]

/-! ### Round trips -/

/-- A command that checks its length and finishes has, on the right length, left its lanes in
`OUT`. -/
theorem lengthCheck_out {s t : State} {n : Byte} {m : Nat} {lns : Vector Byte m} {o : Result State}
    (ho : o = if s.inLen ≠ n then raise s .length else finish s lns.toList 0 0x00)
    (hlen : s.inLen = n) (hm : m ≤ 26) (ht : o = .next t) : t.out.toList.take m = lns.toList := by
  rw [ho, if_neg (not_not_intro hlen)] at ht
  exact finish_out ht hm

/-- Settles O17: the characters an encode command leaves are those of the bytes' groups, whose
unpacking is the bytes. -/
theorem decodeAfterEncodeGivesBytes : Obligations.DecodeAfterEncodeGivesBytes := by
  refine fun s t u => ⟨fun hlen ht hulen hu => ?_, fun hlen ht hulen hu => ?_,
    fun hlen ht hulen hu => ?_⟩
  · rw [lengthCheck_out rfl hlen (by decide) ht] at hu
    have h := decode_of_encoded (exec_decTs u) hulen hu (fun _ _ => packTimestamp_first _)
      (by decide)
    rwa [unpackTimestamp_packTimestamp, toList_lanes_inp] at h
  · rw [lengthCheck_out rfl hlen (by decide) ht] at hu
    have h := decode_of_encoded (exec_decRand u) hulen hu nofun (by decide)
    rwa [unpackRandomness_packRandomness, toList_lanes_inp] at h
  · rw [← List.take_of_length_le (l := t.out.toList) (i := 26) (by simp),
      lengthCheck_out rfl hlen (by decide) ht, encodeIdentifier_eq] at hu
    have h := decode_of_encoded (exec_dec u) hulen hu (fun _ _ => packIdentifier_first _)
      (by decide)
    rwa [unpackIdentifier_packIdentifier, toList_lanes_inp] at h

/-- Settles O18: the lanes accepted are the characters of the groups the scan gave
(`validate_ok`), and packing the unpacked groups gives them back. -/
theorem encodeAfterDecodeGivesCharacters : Obligations.EncodeAfterDecodeGivesCharacters := by
  refine fun s t u => ⟨fun ht hok hulen hu => ?_, fun ht hok hulen hu => ?_,
    fun ht hok hulen hu => ?_⟩
  · obtain ⟨-, v, hv, hfinish⟩ := decode_accepted (exec_decTs s) ht hok
    obtain ⟨hchars, h0⟩ := validate_ok hv
    rw [finish_out hfinish (by decide)] at hu
    have hback : encodeTimestamp (lanes u.inp 0 6) = lanes s.inp 0 10 := by
      rw [lanes_of_inList _ hu, encodeTimestamp,
        packTimestamp_unpackTimestamp v (h0 rfl (by decide)), hchars]
    rw [← toList_lanes_inp s 10 (by decide), ← hback]
    exact (lengthCheck_completes u 6 (by simp) rfl).2 hulen
  · obtain ⟨-, v, hv, hfinish⟩ := decode_accepted (exec_decRand s) ht hok
    obtain ⟨hchars, -⟩ := validate_ok hv
    rw [finish_out hfinish (by decide)] at hu
    have hback : encodeRandomness (lanes u.inp 0 10) = lanes s.inp 0 16 := by
      rw [lanes_of_inList _ hu, encodeRandomness, packRandomness_unpackRandomness, hchars]
    rw [← toList_lanes_inp s 16 (by decide), ← hback]
    exact (lengthCheck_completes u 10 (by simp) rfl).2 hulen
  · obtain ⟨-, v, hv, hfinish⟩ := decode_accepted (exec_dec s) ht hok
    obtain ⟨hchars, h0⟩ := validate_ok hv
    rw [finish_out hfinish (by decide)] at hu
    have hback : encodeIdentifier (lanes u.inp 0 16) = lanes s.inp 0 26 := by
      rw [lanes_of_inList _ hu, encodeIdentifier_eq,
        packIdentifier_unpackIdentifier v (h0 rfl (by decide)), hchars]
    rw [← toList_lanes_inp s 26 (by decide), ← hback]
    exact (lengthCheck_completes u 16 (by simp) rfl).2 hulen

end Sys2Proof.Machine
end

section
/-! PROOFS. The obligations about the order of identifiers and the byte-order commands
(spec/42_ordering.md R170 to R174): bytes, integers and strings compare alike, and the commands undo
one another. -/

namespace Sys2Proof.Machine

/-! ### What a command that succeeded has left -/

theorem finish_wordOut {s t : State} {lns : List Byte} {word : Word128} {rel : Byte}
    (h : finish s lns word rel = .next t) : t.wordOut = word := by
  cases h
  rfl

theorem finish_cmpOut {s t : State} {lns : List Byte} {word : Word128} {rel : Byte}
    (h : finish s lns word rel = .next t) : t.cmpOut = rel := by
  cases h
  rfl

/-- R162: `INT_TO_BYTES` leaves the big-endian form of `INT_IN` in `OUT`. -/
theorem intToBytes_out {s t : State} (h : exec .intToBytes s = .next t) :
    t.out.toList.take 16 = (bigEndianBytes 16 s.intIn.toNat).toList :=
  finish_out ((exec_intToBytes s).symm.trans h) (by decide)

/-- R160: a `TS_PACK` that succeeded had the right length and a timestamp in range, and leaves its
six bytes before the ten lanes. -/
theorem tsPack_accepted {s t : State} (h : exec .tsPack s = .next t) (hok : t.status = 0x01) :
    0 ≤ s.tsIn.toInt ∧ s.tsIn.toInt < 2 ^ 48 ∧
      t.out.toList.take 16 = (bigEndianBytes 6 s.tsIn.toInt.toNat).toList ++ s.inList 10 := by
  rw [exec_tsPack] at h
  split at h
  · exact absurd hok (raise_status h)
  · split at h
    · exact absurd hok (raise_status h)
    · next hrange =>
      rw [← toList_lanes_inp s 10 (by decide), ← Vector.toList_append] at h ⊢
      exact ⟨by omega, by omega, finish_out h (by decide)⟩

/-- R13: six bytes hold a timestamp in range. -/
theorem bigEndian_timestamp {ts : Int} (h0 : 0 ≤ ts) (h1 : ts < 2 ^ 48) :
    (bigEndian (bigEndianBytes 6 ts.toNat).toList : Int) = ts := by
  rw [bigEndian_bigEndianBytes]
  omega

/-! ### The orders -/

/-- Settles O24: on sixteen bytes both orders are that of the big-endian values. -/
theorem ordersAgree : Obligations.OrdersAgree := by
  intro a b t u ha hb ht hu
  have hbytes : LexLess (a.inList 16) (b.inList 16) ↔
      bigEndian (a.inList 16) < bigEndian (b.inList 16) :=
    lexLess_iff_bigEndian_lt
      ((length_inList a (by decide)).trans (length_inList b (by decide)).symm)
  have hout : ∀ {s v : State}, s.inLen = 16 → exec .enc s = .next v →
      v.out.toList = (encodeIdentifier (lanes s.inp 0 16)).toList := fun {s v} hlen hv => by
    rw [← lengthCheck_out rfl hlen (by decide) hv, List.take_of_length_le (by simp)]
  refine ⟨hbytes, hbytes.trans ?_⟩
  rw [hout ha ht, hout hb hu, lexLess_encodeIdentifier, toList_lanes_inp, toList_lanes_inp]

/-- R164: the three codes are the three relations of arrays of one length. -/
theorem relationCode_iff {A B : List Byte} (hlen : A.length = B.length) :
    (relationCode (lexCompare A B) = 0x01 ↔ bigEndian A < bigEndian B) ∧
      (relationCode (lexCompare A B) = 0x02 ↔ bigEndian A = bigEndian B) ∧
      (relationCode (lexCompare A B) = 0x03 ↔ bigEndian B < bigEndian A) := by
  have heq : lexCompare A B = .eq ↔ bigEndian A = bigEndian B :=
    lexCompare_eq_iff.trans ⟨congrArg bigEndian, bigEndian_inj hlen⟩
  rw [← lexLess_iff_bigEndian_lt hlen, ← lexLess_iff_bigEndian_lt hlen.symm, ← heq,
    ← lexCompare_lt_iff, ← lexCompare_gt_iff]
  cases lexCompare A B <;> decide

/-- Settles O25: `CMP` compares `ID` with the sixteen bytes of the integer. -/
theorem cmpAgreesWithInteger : Obligations.CmpAgreesWithInteger := by
  intro s t u ht hlen hu
  rw [intToBytes_out ht] at hu
  have hvalue : bigEndian (u.inList 16) = s.intIn.toNat := by
    rw [hu, bigEndian_bigEndianBytes]
    exact Nat.mod_eq_of_lt s.intIn.isLt
  have hcmp : exec .cmp u =
      finish u [] 0 (relationCode (lexCompare u.ident.toList (u.inList 16))) := by
    rw [exec_cmp, if_neg (by rw [hlen]; decide), hlen]
    rfl
  rw [hcmp, ← hvalue]
  exact ⟨_, rfl, relationCode_iff (by rw [length_inList u (by decide), Vector.length_toList])⟩

/-- R14: what follows two arrays of one length does not matter once they differ. -/
theorem lexLess_append {A B C D : List Byte} (hlen : A.length = B.length) (h : LexLess A B) :
    LexLess (A ++ C) (B ++ D) := by
  rcases h with ⟨k, hkA, hkB, hlt, htake⟩ | ⟨hshort, -⟩
  · refine .inl ⟨k, by rw [List.length_append]; omega, by rw [List.length_append]; omega, ?_, ?_⟩
    · rwa [List.getD_append _ _ _ _ hkA, List.getD_append _ _ _ _ hkB]
    · rwa [List.take_append_of_le_length hkA.le, List.take_append_of_le_length hkB.le]
  · exact absurd hlen hshort.ne

/-- Settles O26: the six bytes of the smaller timestamp are less, and come first. -/
theorem timestampDominatesOrder : Obligations.TimestampDominatesOrder := by
  intro a b t u ht htok hu huok hlt
  obtain ⟨ha0, ha1, haout⟩ := tsPack_accepted ht htok
  obtain ⟨hb0, hb1, hbout⟩ := tsPack_accepted hu huok
  rw [haout, hbout]
  refine lexLess_append (by simp) ((lexLess_iff_bigEndian_lt (by simp)).2 ?_)
  have ha := bigEndian_timestamp ha0 ha1
  have hb := bigEndian_timestamp hb0 hb1
  omega

/-! ### Round trips -/

/-- R174: the integer of sixteen bytes gives the bytes back. -/
theorem intToBytes_after_bytesToInt {s t u : State} (hlen : s.inLen = 16)
    (ht : exec .bytesToInt s = .next t) (hu : u.intIn = t.wordOut) :
    ∃ w, exec .intToBytes u = .next w ∧ Succeeds u w (s.inList 16) 0 0x00 := by
  rw [exec_bytesToInt, if_neg (not_not_intro hlen)] at ht
  rw [exec_intToBytes, hu, finish_wordOut ht, toNat_ofNat_bigEndian_inList s (by decide),
    ← toList_lanes_inp s 16 (by decide), bigEndianBytes_bigEndian]
  exact finish_succeeds u _ 0 0x00 (by simp)

/-- R174: the sixteen bytes of an integer give the integer back. -/
theorem bytesToInt_after_intToBytes {s t u : State} (ht : exec .intToBytes s = .next t)
    (hlen : u.inLen = 16) (hu : u.inList 16 = t.out.toList.take 16) :
    ∃ w, exec .bytesToInt u = .next w ∧ Succeeds u w [] s.intIn 0x00 := by
  have hvalue : BitVec.ofNat 128 (bigEndian (u.inList 16)) = s.intIn := by
    apply BitVec.eq_of_toNat_eq
    rw [toNat_ofNat_bigEndian_inList u (by decide), hu, intToBytes_out ht, bigEndian_bigEndianBytes]
    exact Nat.mod_eq_of_lt s.intIn.isLt
  rw [exec_bytesToInt, if_neg (not_not_intro hlen), hvalue]
  exact finish_succeeds u [] s.intIn 0x00 (by decide)

/-- R174: an identifier packed at a timestamp gives the timestamp back. -/
theorem tsUnpack_after_tsPack {s t u : State} (ht : exec .tsPack s = .next t)
    (hok : t.status = 0x01) (hlen : u.inLen = 16) (hu : u.inList 16 = t.out.toList.take 16) :
    ∃ w ms, exec .tsUnpack u = .next w ∧ Succeeds u w [] ms 0x00 ∧
      (ms.toNat : Int) = s.tsIn.toInt := by
  obtain ⟨h0, h1, hout⟩ := tsPack_accepted ht hok
  have hsix : u.inList 6 = (bigEndianBytes 6 s.tsIn.toInt.toNat).toList := by
    rw [← inList_take u (by decide : 6 ≤ 16), hu, hout, List.take_left' Vector.length_toList]
  obtain ⟨w, hw, hsucc⟩ :=
    finish_succeeds u [] (BitVec.ofNat 128 (bigEndian (u.inList 6))) 0x00 (by decide)
  rw [exec_tsUnpack, if_neg (not_not_intro hlen)]
  refine ⟨w, _, hw, hsucc, ?_⟩
  rw [toNat_ofNat_bigEndian_inList u (by decide), hsix, bigEndian_timestamp h0 h1]

/-- R174: an identifier's timestamp and last ten bytes give the identifier back. -/
theorem tsPack_after_tsUnpack {s t u : State} (hlen : s.inLen = 16)
    (ht : exec .tsUnpack s = .next t) (hulen : u.inLen = 10)
    (hts : u.tsIn = t.wordOut.setWidth 64) (hu : u.inList 10 = (s.inList 16).drop 6) :
    ∃ w, exec .tsPack u = .next w ∧ Succeeds u w (s.inList 16) 0 0x00 := by
  rw [exec_tsUnpack, if_neg (not_not_intro hlen)] at ht
  have hlt : bigEndian (s.inList 6) < 2 ^ 48 := by
    have h := bigEndian_lt (s.inList 6)
    rwa [length_inList s (by decide)] at h
  have hnat : u.tsIn.toNat = bigEndian (s.inList 6) := by
    rw [hts, finish_wordOut ht, BitVec.toNat_setWidth, toNat_ofNat_bigEndian_inList s (by decide)]
    omega
  have hint : u.tsIn.toInt = bigEndian (s.inList 6) := by
    rw [BitVec.toInt_eq_toNat_cond, hnat, if_pos (by omega)]
  have hsix : (bigEndianBytes 6 u.tsIn.toInt.toNat).toList = (s.inList 16).take 6 := by
    rw [hint, Int.toNat_natCast, inList_take s (by decide), ← toList_lanes_inp s 6 (by decide),
      bigEndianBytes_bigEndian]
  rw [exec_tsPack, if_neg (not_not_intro hulen), if_neg (by omega), hsix, hu,
    List.take_append_drop]
  exact finish_succeeds u _ 0 0x00 (by rw [length_inList s (by decide)]; decide)

/-- Settles O27: the four round trips. -/
theorem byteOrderRoundTrips : Obligations.ByteOrderRoundTrips := fun _ _ _ =>
  ⟨intToBytes_after_bytesToInt, bytesToInt_after_intToBytes, tsUnpack_after_tsPack,
    tsPack_after_tsUnpack⟩

end Sys2Proof.Machine
end

section
/-! PROOFS. The obligations about the command words and the `ENCODE` ROM (spec/30_encoding.md R70,
R71; spec/10_state.md R31). -/

namespace Sys2Proof.Machine

/-- R70: a table word of one byte is read as the decoder reads the byte. -/
theorem decodeTableWord_of_decode {c : Byte} {i : Instr} (h : decode c = .ok i) :
    decodeTableWord 8 c.toNat = some i := by
  rw [decodeTableWord, if_pos ⟨rfl, c.isLt⟩, BitVec.ofNat_toNat, BitVec.setWidth_eq, h]

/-- Settles O2: the decoder inverts the encoder on bytes, and a table word is read as its byte. -/
theorem decodeEncodeAgree : Obligations.DecodeEncodeAgree :=
  ⟨fun i _ => ⟨decode_encode i, decodeTableWord_of_decode (decode_encode i)⟩, encode_of_decode⟩

/-- Settles O3: the 32 stored codes are the alphabet's, and rise with the group. -/
theorem encodeRomHoldsAlphabet : Obligations.EncodeRomHoldsAlphabet :=
  ⟨by decide, encodeChar_strictMono⟩

end Sys2Proof.Machine
end
